-- ==== Sys2Proof/Word.lean ====
section
/-! DEFINITION. The word types of huffman_core and their plainest arithmetic: a 32-bit register word
(rule R5, register width), a byte (rule R10) and a bit-string (rule R9). -/

namespace Sys2Proof

/-- A host-visible register or a command word: 32 bits (rules R5, R54). -/
abbrev Word := BitVec 32

/-- One byte of a buffer, a symbol or a token byte: 0 to 255 (rule R10). -/
abbrev Byte := BitVec 8

/-- A finite sequence of bits, first bit first (rule R9). A code is one; it is never read as a number. -/
abbrev BitString := List Bool

/-- `trunc_32` of a mathematical integer, the form in which every register is written (rule R8). -/
abbrev Word.ofNat (n : Nat) : Word := BitVec.ofNat 32 n

/-- `zext_32` of a byte, the form in which a byte is returned to the host (rule R8). -/
abbrev Byte.toWord (b : Byte) : Word := b.setWidth 32

/-- The symbol with value `n` (taken modulo 256). -/
abbrev Byte.ofNat (n : Nat) : Byte := BitVec.ofNat 8 n

end Sys2Proof
end

