-- ==== Sys2Proof/Syntax.lean ====
section
/-! DEFINITION. The commands of huffman_core: one constructor per row of spec/opcode_table.json
(rule R55). No command has an operand field (rule R56). -/

namespace Sys2Proof

/-- A legal command (rule R55). -/
inductive Instr where
  /-- `ENCODE`, rule R77. -/
  | encode
  /-- `SERIALIZE`, rule R89. -/
  | serialize
  /-- `DECODE`, rule R81. -/
  | decode
  /-- `DESERIALIZE`, rule R100. -/
  | deserialize
  /-- `GEN_CODES`, rule R76. -/
  | genCodes
  /-- `CLEAR`, rule R101. -/
  | clear
  deriving DecidableEq, Repr

end Sys2Proof
end

