-- ==== Sys2Proof/Decode.lean ====
section
/-! DEFINITION. The command word (rules R54, R55, R60): a total decoder that rejects by name, and after it
the encoder, both from the opcode map of rule R55. -/

namespace Sys2Proof

/-- Why a word is no command (rule R60). Both reasons give the same error, `ILLEGAL_CMD` (rule R102). -/
inductive IllegalWord where
  /-- Some of the reserved bits 31:4 are set. -/
  | reservedBits
  /-- The opcode in bits 3:0 is 0x0 or 0x7 to 0xF. -/
  | reservedOp
  deriving DecidableEq, Repr

/-- The field `OP` of the format `CMD32`, bits 3:0 (rule R54). -/
def opField (w : Word) : BitVec 4 := w.extractLsb' 0 4

/-- The reserved field of the format `CMD32`, bits 31:4, which must be 0 (rule R54). -/
def reservedField (w : Word) : BitVec 28 := w.extractLsb' 4 28

/-- The opcode map of rule R55. -/
def decodeOp : BitVec 4 → Option Instr
  | 0x1#4 => some .encode
  | 0x2#4 => some .serialize
  | 0x3#4 => some .decode
  | 0x4#4 => some .deserialize
  | 0x5#4 => some .genCodes
  | 0x6#4 => some .clear
  | _ => none

/-- The command a word stands for, or why it is illegal (rules R58, R60). -/
def decode (w : Word) : Except IllegalWord Instr :=
  if reservedField w ≠ 0 then .error .reservedBits
  else match decodeOp (opField w) with
    | some i => .ok i
    | none => .error .reservedOp

/-- The command a word stands for, numbered as spec/opcode_table.json numbers its bits. A command is one
32-bit word, so a longer or shorter row would still be that one word, its missing bits 0. -/
def decodeTableWord (nbits w : Nat) : Option Instr :=
  match decode (BitVec.ofNat 32 (w % 2 ^ nbits)) with
  | .ok i => some i
  | .error _ => none

/-- The opcode of a command (rule R55). -/
def opcode : Instr → BitVec 4
  | .encode => 0x1
  | .serialize => 0x2
  | .decode => 0x3
  | .deserialize => 0x4
  | .genCodes => 0x5
  | .clear => 0x6

/-- The word of a command: the opcode in bits 3:0 under 28 zero bits (rules R54, R55). -/
def encode (i : Instr) : Word := (0 : BitVec 28) ++ opcode i

end Sys2Proof
end

