-- ==== Sys2Proof/Config.lean ====
section
/-! DEFINITION. What one huffman_core block fixes and what the spec leaves free: the six address spaces
(rule R36), the open parameters (rules R5, R37) and the uninterpreted values a model must draw
(rules R44, R125; U4, U10 of 93_implementation_defined.md). -/

namespace Sys2Proof

/-- The six address spaces, each addressed by a byte offset from 0 (rule R36). -/
inductive Space where
  /-- `REG`, the register space. -/
  | reg
  /-- `IN_BUF`, the bytes `ENCODE` compresses. -/
  | inBuf
  /-- `BIT_BUF`, a packed bit-string. -/
  | bitBuf
  /-- `TOK_BUF`, a serialized tree. -/
  | tokBuf
  /-- `OUT_BUF`, the bytes `DECODE` produced. -/
  | outBuf
  /-- `CTAB`, the read-only view of the code table. -/
  | ctab
  deriving DecidableEq, Repr

/-- The spaces that hold bytes of their own: `REG` is read and written by words, `CTAB` is a view (rule R36). -/
def Space.isBuffer : Space → Bool
  | .inBuf => true
  | .bitBuf => true
  | .tokBuf => true
  | .outBuf => true
  | .reg => false
  | .ctab => false

/-- The open parameters of rule R5 and rule R37. The upper bounds of rule R5 hold by the fields' widths:
`IN_CAP` and `OUT_CAP` are below 2^32 and `BIT_BUF_BYTES` is below 2^29, so `BIT_CAP` is below 2^32. -/
structure Config where
  /-- `IN_CAP`, the capacity of `IN_BUF` in bytes. -/
  inCap : Word
  /-- `BIT_BUF_BYTES`, the capacity of `BIT_BUF` in bytes. -/
  bitBufBytes : BitVec 29
  /-- `OUT_CAP`, the capacity of `OUT_BUF` in bytes. -/
  outCap : Word
  /-- `REG_BASE`. -/
  regBase : Nat
  /-- `IN_BASE`. -/
  inBase : Nat
  /-- `BIT_BASE`. -/
  bitBase : Nat
  /-- `TOK_BASE`. -/
  tokBase : Nat
  /-- `OUT_BASE`. -/
  outBase : Nat
  /-- `CTAB_BASE`. -/
  ctabBase : Nat
  deriving DecidableEq, Repr

/-- `TOK_CAP`, fixed by rule R5. -/
abbrev Config.tokCap : Nat := 768

/-- `BIT_CAP = 8 × BIT_BUF_BYTES` (rule R5). -/
def Config.bitCap (c : Config) : Nat := 8 * c.bitBufBytes.toNat

/-- The size in bytes of each space (rule R36). -/
def Config.size (c : Config) : Space → Nat
  | .reg => 64
  | .inBuf => c.inCap.toNat
  | .bitBuf => c.bitBufBytes.toNat
  | .tokBuf => Config.tokCap
  | .outBuf => c.outCap.toNat
  | .ctab => 16384

/-- Where the platform places each space in the host's address map (rule R37). -/
def Config.base (c : Config) : Space → Nat
  | .reg => c.regBase
  | .inBuf => c.inBase
  | .bitBuf => c.bitBase
  | .tokBuf => c.tokBase
  | .outBuf => c.outBase
  | .ctab => c.ctabBase

/-- The platform address of an offset of a space (rule R37). No rule of the block depends on it. -/
def Config.platformAddress (c : Config) (sp : Space) (off : Nat) : Nat := c.base sp + off

/-- The test configuration of decision D35, which `State.reset` carries. The bases are placed one space
after another; rule R37 leaves them to the platform. DESIGN CHOICE (log entry 2). -/
def Config.test : Config where
  inCap := 4096
  bitBufBytes := 4096
  outCap := 4096
  regBase := 0
  inBase := 0x10000
  bitBase := 0x20000
  tokBase := 0x30000
  outBase := 0x40000
  ctabBase := 0x50000

/-- The value of a buffer byte that nothing has written since reset number `epoch` (rules R35, R125, U4):
fixed until written, and unconstrained. Log entry 3. -/
opaque Config.unwrittenByte (epoch : Nat) (sp : Space) (off : Nat) : Byte

/-- The `n`-th value drawn for a host read that rule R44 leaves unspecified (U10). Log entry 4. -/
opaque Config.busyRead (n : Nat) : Word

end Sys2Proof
end

