-- ==== Sys2Proof/Machine/Bus.lean ====
section
/-! DEFINITION. The host's side of the block: register names and offsets (rule R16), bus accesses
(rules R41, R64), the host's moves, and whose turn it is (rules R6, R46, R118). -/

namespace Sys2Proof.Machine

/-- The registers of rule R16 that have a name. -/
inductive Reg where
  | cmd | status | errDetail | errPos | inLen | bitLen | tokLen | outLen | trailBits | nsym
  | capIn | capBit | capOut | capTok
  deriving DecidableEq, Repr

/-- The byte offset of a register in `REG` (rule R16). -/
def Reg.offset : Reg → Nat
  | .cmd => 0x00
  | .status => 0x04
  | .errDetail => 0x08
  | .errPos => 0x0C
  | .inLen => 0x10
  | .bitLen => 0x14
  | .tokLen => 0x18
  | .outLen => 0x1C
  | .trailBits => 0x20
  | .nsym => 0x24
  | .capIn => 0x28
  | .capBit => 0x2C
  | .capOut => 0x30
  | .capTok => 0x34

/-- The register at an offset of `REG`; `none` for the reserved offsets 0x38 and 0x3C and for an offset
at or beyond the space's size (rules R16, R37). -/
def Reg.at? : Nat → Option Reg
  | 0x00 => some .cmd
  | 0x04 => some .status
  | 0x08 => some .errDetail
  | 0x0C => some .errPos
  | 0x10 => some .inLen
  | 0x14 => some .bitLen
  | 0x18 => some .tokLen
  | 0x1C => some .outLen
  | 0x20 => some .trailBits
  | 0x24 => some .nsym
  | 0x28 => some .capIn
  | 0x2C => some .capBit
  | 0x30 => some .capOut
  | 0x34 => some .capTok
  | _ => none

/-- One bus access, `(R|W, space, offset, width, value)` of rule R64, the width in bytes. The value of a
1-byte write is its low 8 bits. -/
inductive Access where
  | read (sp : Space) (off width : Nat)
  | write (sp : Space) (off width : Nat) (value : Word)
  deriving DecidableEq, Repr

/-- The width and alignment a space admits (rule R41): `REG` a 32-bit access at a multiple of 4, every
other space a 1-byte access. -/
def admitsWidth (sp : Space) (off width : Nat) : Bool :=
  match sp with
  | .reg => width == 4 && off % 4 == 0
  | _ => width == 1

/-- An access the host may issue (rule R41). -/
def Access.admitted : Access → Bool
  | .read sp off width => admitsWidth sp off width
  | .write sp off width _ => admitsWidth sp off width

/-- One move of the host: a bus access, or `WAIT` (rule R65), which polls `STATUS` until bit 0 reads 0. -/
inductive HostMove where
  | access (a : Access)
  | wait
  deriving DecidableEq, Repr

/-- Whose turn a step is: the host's, the core's, or the platform asserting reset (rules R6, R118). A list
of turns is the schedule that fixes the single total order of rule R46. -/
inductive Turn where
  | host
  | core
  | reset
  deriving DecidableEq, Repr

/-- A value a host read returned. -/
structure Observation where
  /-- The space read. -/
  sp : Space
  /-- The offset read. -/
  off : Nat
  /-- The value returned, a byte zero-extended. -/
  value : Word
  deriving DecidableEq, Repr

end Sys2Proof.Machine
end

