-- ==== Sys2Proof/Machine/Tree.lean ====
section
/-! DEFINITION. The tree type of rule R11, the shapes rule R30 allows, and the walk along a path of rule R63. -/

namespace Sys2Proof.Machine

/-- A `Root` value of rule R11: `nil` is `NIL`, "no tree" as a root and "absent" as a child. -/
inductive Tree where
  | nil
  | leaf (sym : Byte)
  | internal (left right : Tree)
  deriving DecidableEq, Repr

/-- Every internal node has two children that are not `NIL` (rule R30, shape 2, below the root). -/
def Tree.full : Tree → Bool
  | .nil => false
  | .leaf _ => true
  | .internal l r => l.full && r.full

/-- The symbols of the leaves, left to right. -/
def Tree.leaves : Tree → List Byte
  | .nil => []
  | .leaf s => [s]
  | .internal l r => l.leaves ++ r.leaves

/-- Shape 1 of rule R30: the wrapper of a single symbol. -/
def Tree.wrapper (s : Byte) : Tree := .internal (.leaf s) .nil

/-- A wrapper, shape 1 of rule R30. -/
def Tree.isWrapper : Tree → Bool
  | .internal (.leaf _) .nil => true
  | _ => false

/-- Shape 2 of rule R30: an internal root, two children everywhere, pairwise distinct symbols. -/
def Tree.isFullTree : Tree → Bool
  | .internal l r => l.full && r.full && decide (l.leaves ++ r.leaves).Nodup
  | _ => false

/-- A value the block may hold in `ROOT` (rules R11, R30): `NIL`, a wrapper or a full tree. -/
def Tree.legal (t : Tree) : Bool := t == .nil || t.isWrapper || t.isFullTree

/-- The child that one bit descends to: 0 the left one, 1 the right one (rules R63, R81). A node with no
children has only absent ones. -/
def Tree.child : Tree → Bool → Tree
  | .internal l _, false => l
  | .internal _ r, true => r
  | _, _ => .nil

/-- The node that a bit-string leads to from a tree (rule R63). -/
def Tree.follow (t : Tree) : BitString → Tree
  | [] => t
  | b :: p => (t.child b).follow p

end Sys2Proof.Machine
end

