-- ==== Sys2Proof/Machine/State.lean ====
section
/-! DEFINITION. The state of the block and of the host that drives it, plain data (rules R16 to R35), the
stop reasons, and the state after reset (rules R35, R118, R119). -/

namespace Sys2Proof.Machine

/-- A byte buffer as the list of its written bytes: (offset, byte) pairs, offsets strictly rising. An offset
that is not listed holds no written byte; it reads as an unconstrained value (rule R125, log entry 3). -/
abbrev Memory := List Host.Cell

/-- The canonical form of a buffer: offsets strictly rising. An unlisted offset stands for "no byte written",
which no entry equals. -/
abbrev Memory.wf (m : Memory) : Prop := m.Pairwise (fun c d => c.1 < d.1)

/-- The code table `CT[0..255]`: each entry absent or a code (rule R31). -/
abbrev CodeTable := Vector (Option BitString) 256

/-- The frequency table `FREQ[0..255]` (rule R28). -/
abbrev FreqTable := Vector Word 256

/-- The state: the block (its open parameters, registers, hidden state and buffers) and, below, the model's
own fields, which carry the outside world and the free values. -/
structure State where
  /-- The open parameters of rule R5 and rule R37, never written. `CAP_IN`, `CAP_BIT`, `CAP_OUT` and
  `CAP_TOK` (rule R27) read them. -/
  cfg : Config
  /-- `PENDING` (rule R32): the latched command word. `STATUS.BUSY` is its view. -/
  pending : Option Word
  /-- `STATUS.DONE` (rule R18). -/
  done : Bool
  /-- `STATUS.VIOL` (rule R18). -/
  viol : Bool
  /-- `STATUS.ERRCODE` (rule R18). `STATUS.ERR` is its view. -/
  errCode : BitVec 4
  /-- `ERR_DETAIL[3:0]` (rule R19); bits 31:4 read 0. -/
  errDetail : BitVec 4
  /-- `ERR_POS` (rule R20). -/
  errPos : Word
  /-- `IN_LEN` (rule R21). -/
  inLen : Word
  /-- `BIT_LEN` (rule R22). -/
  bitLen : Word
  /-- `TOK_LEN` (rule R23). -/
  tokLen : Word
  /-- `OUT_LEN` (rule R24). -/
  outLen : Word
  /-- `TRAIL_BITS` (rule R25). -/
  trailBits : Word
  /-- `FREQ[0..255]` (rule R28), hidden. -/
  freq : FreqTable
  /-- `ROOT` (rule R29), hidden. -/
  root : Tree
  /-- `CT[0..255]` (rule R31), hidden; `CTAB` and `NSYM` are its views. -/
  ct : CodeTable
  /-- `IN_BUF` (rule R36). -/
  inBuf : Memory
  /-- `BIT_BUF` (rule R36). -/
  bitBuf : Memory
  /-- `TOK_BUF` (rule R36). -/
  tokBuf : Memory
  /-- `OUT_BUF` (rule R36). -/
  outBuf : Memory
  /-- MODEL'S OWN: how many resets there have been; selects the values of unwritten bytes (log entry 3). -/
  epoch : Nat
  /-- MODEL'S OWN: how many unspecified read values have been drawn (log entry 4). -/
  draws : Nat
  /-- MODEL'S OWN: the moves the host has still to make, in program order (rules R46, R64; log entry 1). -/
  host : List HostMove
  /-- MODEL'S OWN: whose turn the next steps are; when it is empty the core goes first (log entry 5). -/
  sched : List Turn
  /-- MODEL'S OWN: the values the host's reads returned, the latest first (log entry 1). -/
  reads : List Observation
  deriving DecidableEq, Repr

/-- Why the machine would stop with a fault: there is no reason. The block has no traps; a failing command
completes with an error code and the block stays usable (rules R103, R107, R108). No meaning raises a fault,
which is safe: nothing is claimed of a stopped machine. -/
inductive Fault where
  deriving DecidableEq, Repr

/-- Why a step has no meaning. -/
inductive Refusal where
  /-- Raised by `exec` for a command that has no meaning yet. Safe: nothing is claimed of it. No arm uses it. -/
  | notModelled (mnemonic : String)
  /-- Raised by the host's turn for a bus access of a width or alignment the space does not admit: "the host
  must not issue it, and a model refuses it" (rule R41, U12). Safe: nothing is claimed of it. -/
  | accessNotAdmitted (a : Access)
  deriving DecidableEq, Repr

/-- The block after its first reset, with given open parameters (rules R35, R118, R119): registers and
counters 0, no tree, an empty table, no byte written. The outside world has nothing left to do. -/
def State.resetWith (c : Config) : State where
  cfg := c
  pending := none
  done := false
  viol := false
  errCode := 0
  errDetail := 0
  errPos := 0
  inLen := 0
  bitLen := 0
  tokLen := 0
  outLen := 0
  trailBits := 0
  freq := Vector.replicate 256 0
  root := .nil
  ct := Vector.replicate 256 none
  inBuf := []
  bitBuf := []
  tokBuf := []
  outBuf := []
  epoch := 0
  draws := 0
  host := []
  sched := []
  reads := []

/-- The machine right after reset, in the test configuration of decision D35 (log entry 2). -/
def State.reset : State := State.resetWith Config.test

end Sys2Proof.Machine
end

