-- ==== Sys2Proof/Machine/Ops.lean ====
section
/-! DEFINITION. The named operations over buffers, bits and the status fields that every command shares:
`MemRead` and `MemWrite` (rule R12), `BitRead` and `BitWrite` (rule R39), the code-table view (rule R45),
accepting a command (rule R57), completing one, with or without an error (rules R59, R103), and reset
(rule R118). -/

namespace Sys2Proof.Machine

/-! Buffers -/

/-- The written byte at an offset, if there is one. -/
def Memory.get? : Memory → Nat → Option Byte
  | [], _ => none
  | (b, v) :: m, a => if a = b then some v else Memory.get? m a

/-- Write one byte, keeping the offsets strictly rising. -/
def Memory.put (a : Nat) (v : Byte) : Memory → Memory
  | [] => [(a, v)]
  | (b, w) :: m =>
    if a < b then (a, v) :: (b, w) :: m
    else if a = b then (a, v) :: m
    else (b, w) :: Memory.put a v m

/-- The written bytes of a space. `REG` and `CTAB` hold none: they are views of other state. -/
def State.mem (s : State) : Space → Memory
  | .inBuf => s.inBuf
  | .bitBuf => s.bitBuf
  | .tokBuf => s.tokBuf
  | .outBuf => s.outBuf
  | .reg => []
  | .ctab => []

/-- Replace the written bytes of a buffer; `REG` and `CTAB` have none to replace. -/
def State.setMem (s : State) (sp : Space) (m : Memory) : State :=
  match sp with
  | .inBuf => { s with inBuf := m }
  | .bitBuf => { s with bitBuf := m }
  | .tokBuf => { s with tokBuf := m }
  | .outBuf => { s with outBuf := m }
  | .reg => s
  | .ctab => s

/-- The byte of a buffer at an offset: the one last written, or the unconstrained value it has held since
reset (rules R35, R125). -/
def State.bufferByte (s : State) (sp : Space) (a : Nat) : Byte :=
  match (s.mem sp).get? a with
  | some v => v
  | none => Config.unwrittenByte s.epoch sp a

/-! Bits -/

/-- A byte from up to eight bits, the first in its most significant bit, missing ones 0 (rules R39, R40). -/
def packByte (bs : BitString) : Byte :=
  BitVec.ofBoolListBE
    [bs.getD 0 false, bs.getD 1 false, bs.getD 2 false, bs.getD 3 false,
     bs.getD 4 false, bs.getD 5 false, bs.getD 6 false, bs.getD 7 false]

/-- The packed layout of a bit-string: byte `i` holds bits `8i` to `8i + 7`, the pad bits of the last byte 0
(rules R39, R40). -/
def packBits (bs : BitString) : List Byte :=
  (List.range ((bs.length + 7) / 8)).map (fun i => packByte (bs.drop (8 * i)))

/-- The byte with its bit `i` (counted from the least significant) replaced. -/
def setBit (v : Byte) (i : Nat) (b : Bool) : Byte :=
  if b then v ||| (1#8 <<< i) else v &&& ~~~(1#8 <<< i)

/-! The tables and the code-table view -/

/-- `CT[s]` (rule R31). -/
def entry (ct : CodeTable) (s : Byte) : Option BitString := ct[s.toNat]'s.isLt

/-- `FREQ[s]` (rule R28). -/
def countOf (freq : FreqTable) (s : Byte) : Word := freq[s.toNat]'s.isLt

/-- One byte of `CTAB` (rule R45): byte 0 of the 64-byte entry of a symbol is the code's length, bytes 32 to 63
hold its bits packed, every other byte is 0. -/
def ctabByte (ct : CodeTable) (a : Nat) : Byte :=
  match entry ct (Byte.ofNat (a / 64)) with
  | none => 0
  | some c =>
    if a % 64 = 0 then Byte.ofNat c.length
    else if a % 64 < 32 then 0
    else packByte (c.drop (8 * (a % 64 - 32)))

/-! Reading and writing one byte of a space -/

/-- `MemRead(sp, a, 1)` (rule R12), total: an offset at or beyond the space's size reads 0 (rule R37). `REG` is
not read by bytes (rule R41) and answers 0 here. -/
def State.readByte (s : State) (sp : Space) (a : Nat) : Byte :=
  if a < s.cfg.size sp then
    match sp with
    | .reg => 0
    | .ctab => ctabByte s.ct a
    | _ => s.bufferByte sp a
  else 0

/-- `MemWrite(sp, a, 1, v)` (rule R12), total: an offset at or beyond the space's size ignores the write
(rule R37), and so do `CTAB` (rule R43) and `REG`, which is not written by bytes (rule R41). -/
def State.writeByte (s : State) (sp : Space) (a : Nat) (v : Byte) : State :=
  if a < s.cfg.size sp then s.setMem sp (Memory.put a v (s.mem sp)) else s

/-- `MemWrite` of a byte sequence at consecutive offsets, in rising order. -/
def State.writeBytes (s : State) (sp : Space) (a : Nat) : List Byte → State
  | [] => s
  | v :: vs => (s.writeByte sp a v).writeBytes sp (a + 1) vs

/-- `BitRead(k)` (rule R39). -/
def State.bitRead (s : State) (k : Nat) : Bool :=
  (s.readByte .bitBuf (k / 8)).getLsbD (7 - k % 8)

/-- `BitWrite(k, b)` (rule R39): the other 7 bits of the byte stay. -/
def State.bitWrite (s : State) (k : Nat) (b : Bool) : State :=
  s.writeByte .bitBuf (k / 8) (setBit (s.readByte .bitBuf (k / 8)) (7 - k % 8) b)

/-! Accept and completion -/

/-- The error codes of `STATUS.ERRCODE` (rule R104). -/
inductive ErrCode where
  | none
  | illegalCmd
  | capacity
  | corruptTree
  | badPath
  /-- Reserved for the document's encoder failure, never raised (rule R79). -/
  | symbolAbsent
  deriving DecidableEq, Repr

/-- The value of an error code (rule R104). -/
def ErrCode.bits : ErrCode → BitVec 4
  | .none => 0
  | .illegalCmd => 1
  | .capacity => 2
  | .corruptTree => 3
  | .badPath => 4
  | .symbolAbsent => 5

/-- The sub-causes of `CAPACITY` (rule R105). -/
inductive CapCause where
  | capIn
  | capBit
  | capTok
  | capOut
  deriving DecidableEq, Repr

/-- The value of a sub-cause of `CAPACITY` (rule R105). -/
def CapCause.bits : CapCause → BitVec 4
  | .capIn => 1
  | .capBit => 2
  | .capTok => 3
  | .capOut => 4

/-- The sub-causes of `CORRUPT_TREE` (rule R105). -/
inductive CorruptCause where
  | badMarker
  | truncLeaf
  | truncSubtree
  | trailing
  | rootLeaf
  | dupSymbol
  deriving DecidableEq, Repr

/-- The value of a sub-cause of `CORRUPT_TREE` (rule R105). -/
def CorruptCause.bits : CorruptCause → BitVec 4
  | .badMarker => 1
  | .truncLeaf => 2
  | .truncSubtree => 3
  | .trailing => 4
  | .rootLeaf => 5
  | .dupSymbol => 6

/-- `Corrupt(d, p)`, the deserializer's failure (rule R90). -/
structure Corrupt where
  /-- The sub-cause `d`. -/
  cause : CorruptCause
  /-- The byte position `p` in `TOK_BUF`. -/
  pos : Nat
  deriving DecidableEq, Repr

/-- How a command ends: without error, or with one of the errors that rule R104 says a command raises. -/
inductive CmdResult where
  | ok
  | illegalCmd
  | capacity (cause : CapCause) (pos : Nat)
  | corruptTree (c : Corrupt)
  | badPath (pos : Nat)
  deriving DecidableEq, Repr

/-- The error code a result reports (rule R104). -/
def CmdResult.code : CmdResult → ErrCode
  | .ok => .none
  | .illegalCmd => .illegalCmd
  | .capacity _ _ => .capacity
  | .corruptTree _ => .corruptTree
  | .badPath _ => .badPath

/-- The sub-cause a result reports; 0 where the error has none (rule R105). -/
def CmdResult.detail : CmdResult → BitVec 4
  | .ok => 0
  | .illegalCmd => 0
  | .capacity c _ => c.bits
  | .corruptTree c => c.cause.bits
  | .badPath _ => 0

/-- The position a result reports; 0 where the error names none (rules R104, R105). -/
def CmdResult.pos : CmdResult → Nat
  | .ok => 0
  | .illegalCmd => 0
  | .capacity _ p => p
  | .corruptTree c => c.pos
  | .badPath k => k

/-- Complete a command (rule R59): the one operation that takes an error (rules R103, R107) and the one that
ends a command without error. Nothing is saved and no control is transferred; `VIOL` keeps its value. -/
def State.complete (s : State) (r : CmdResult) : State :=
  { s with
    errCode := r.code.bits
    errDetail := r.detail
    errPos := Word.ofNat r.pos
    pending := none
    done := true }

/-- Accept a command word (rule R57), which is also the only "return" from an error (rule R108): `DONE`, `ERR`,
`ERRCODE` and `VIOL` are cleared; `ERR_DETAIL` and `ERR_POS` stay until completion. -/
def State.accept (s : State) (w : Word) : State :=
  { s with pending := some w, done := false, errCode := 0, viol := false }

/-- The first turn of the schedule is used up (log entry 5). -/
def State.spendTurn (s : State) : State := { s with sched := s.sched.tail }

/-- The host has made its first move; `rest` are the moves left. -/
def State.withHost (s : State) (rest : List HostMove) : State := { s with host := rest }

/-- Reset of the block (rule R118): every piece of the block's state takes its value of rule R35, a latched
command is discarded, and the buffers' contents become new unconstrained values. The open parameters and
the outside world are not the block's state and stay. -/
def State.resetBlock (s : State) : State :=
  { State.resetWith s.cfg with
    epoch := s.epoch + 1
    draws := s.draws
    host := s.host
    sched := s.sched
    reads := s.reads }

end Sys2Proof.Machine
end

