-- ==== Sys2Proof/Machine/Operands.lean ====
section
/-! DEFINITION. Operand assembly (rule R56): the operands each command reads from fixed registers and spaces.
A length register is read as an unsigned 32-bit integer. -/

namespace Sys2Proof.Machine

/-- Bytes 0 to `n − 1` of a space, in order. -/
def State.bytesOf (s : State) (sp : Space) (n : Nat) : List Byte :=
  (List.range n).map (s.readByte sp)

/-- The operand `IN_BUF[0..IN_LEN)` of `ENCODE`. -/
def State.inBytes (s : State) : List Byte := s.bytesOf .inBuf s.inLen.toNat

/-- The operand `TOK_BUF[0..TOK_LEN)` of `DECODE` and `DESERIALIZE`. -/
def State.tokBytes (s : State) : List Byte := s.bytesOf .tokBuf s.tokLen.toNat

/-- The operand "bits 0 to `BIT_LEN − 1` of `BIT_BUF`" of `DECODE`. -/
def State.bits (s : State) : BitString := (List.range s.bitLen.toNat).map s.bitRead

end Sys2Proof.Machine
end

