-- ==== Sys2Proof/Machine/Serializer.lean ====
section
/-! DEFINITION. The token format (rule R61), the tree serializer (rules R86 to R88) and the command `SERIALIZE`
(rule R89). -/

namespace Sys2Proof.Machine

/-- `M0`, the internal-node marker (rules R5, R61). -/
def markerInternal : Byte := 0x30

/-- `M1`, the leaf marker (rules R5, R61). -/
def markerLeaf : Byte := 0x31

/-- `Serialize(root)` (rule R86), the pre-order token sequence; an absent tree or child emits nothing. -/
def serialize : Tree → List Byte
  | .nil => []
  | .leaf s => [markerLeaf, s]
  | .internal l r => markerInternal :: (serialize l ++ serialize r)

/-- `SERIALIZE` (rule R89). -/
def execSerialize (s : State) : Host.Outcome State Fault Refusal :=
  let toks := serialize s.root
  .next (State.complete
    { s.writeBytes .tokBuf 0 toks with tokLen := Word.ofNat toks.length } .ok)

end Sys2Proof.Machine
end

