-- ==== Sys2Proof/Machine/Deserializer.lean ====
section
/-! DEFINITION. The tree deserializer (rules R90 to R98) and the command `DESERIALIZE` (rule R100). -/

namespace Sys2Proof.Machine

/-- What `Sub` has read (rule R90): the subtree, the bytes still to read, the cursor, the symbols seen. -/
structure Parsed where
  /-- The subtree read. -/
  tree : Tree
  /-- The bytes at the cursor and beyond. -/
  rest : List Byte
  /-- The cursor. -/
  pos : Nat
  /-- The symbols of the leaves read so far. -/
  seen : List Byte
  deriving DecidableEq, Repr

/-- `Sub(isRoot)` (rule R90), reading the bytes `toks` at cursor `pos`. The cursor is at the end of the sequence
exactly when no byte is left, so `pos` is then `t`. The first argument bounds the nesting; every nested call
has consumed a byte, so one more than the number of bytes left suffices. -/
def parseSub : Nat → Bool → List Byte → Nat → List Byte → Except Corrupt Parsed
  | 0, _, _, pos, _ => .error ⟨.truncSubtree, pos⟩
  | n + 1, isRoot, toks, pos, seen =>
    match toks with
    | [] => .error ⟨.truncSubtree, pos⟩
    | m :: rest =>
      if m ≠ markerInternal ∧ m ≠ markerLeaf then .error ⟨.badMarker, pos⟩
      else if m = markerLeaf then
        if isRoot then .error ⟨.rootLeaf, pos⟩
        else match rest with
          | [] => .error ⟨.truncLeaf, pos + 1⟩
          | s :: rest' =>
            if s ∈ seen then .error ⟨.dupSymbol, pos + 1⟩
            else .ok ⟨.leaf s, rest', pos + 2, s :: seen⟩
      else match parseSub n false rest (pos + 1) seen with
        | .error c => .error c
        | .ok l =>
          match parseSub n false l.rest l.pos l.seen with
          | .error c => .error c
          | .ok r => .ok ⟨.internal l.tree r.tree, r.rest, r.pos, r.seen⟩

/-- The general case of `Deserialize` (rule R90): one subtree, and nothing after it (rule R97). -/
def parseTree (toks : List Byte) : Except Corrupt Tree :=
  match parseSub (toks.length + 1) true toks 0 [] with
  | .error c => .error c
  | .ok p => if p.rest ≠ [] then .error ⟨.trailing, p.pos⟩ else .ok p.tree

/-- `Deserialize` (rule R90) of the sequence `TOK_BUF[0..t)`: empty gives `NIL` (rule R91), exactly `[M0, M1, s]`
gives the wrapper (rule R92). -/
def deserialize (toks : List Byte) : Except Corrupt Tree :=
  match toks with
  | [] => .ok .nil
  | [a, b, s] =>
    if a = markerInternal ∧ b = markerLeaf then .ok (.wrapper s) else parseTree [a, b, s]
  | toks => parseTree toks

/-- `DESERIALIZE` (rule R100). -/
def execDeserialize (s : State) : Host.Outcome State Fault Refusal :=
  if s.tokLen.toNat > Config.tokCap then .next (s.complete (.capacity .capTok 0))
  else match deserialize s.tokBytes with
    | .error c => .next (State.complete { s with root := .nil } (.corruptTree c))
    | .ok r => .next (State.complete { s with root := r } .ok)

end Sys2Proof.Machine
end

