-- ==== Sys2Proof/Machine/Decoder.lean ====
section
/-! DEFINITION. The decoder's walk and the command `DECODE` (rules R81 to R84). -/

namespace Sys2Proof.Machine

/-- How a walk ends: the symbols emitted, and either the number of bits read since the last one, or the
error that stopped it (rules R81, R83, R84). -/
structure WalkEnd where
  /-- The symbols emitted, in order. -/
  out : List Byte
  /-- `since` when the bits ran out, else the error. -/
  stop : Except CmdResult Nat
  deriving DecidableEq

/-- The loop of rule R81 over the bits left to read: `cap` is `OUT_CAP`, `k` the index of the next bit, `cur`
the tree cursor, `m` the number of symbols emitted, `since` the bits read since the last one. -/
def walkBits (root : Tree) (cap : Nat) : BitString → Nat → Tree → Nat → Nat → WalkEnd
  | [], _, _, _, since => ⟨[], .ok since⟩
  | b :: bs, k, cur, m, since =>
    match cur.child b with
    | .nil => ⟨[], .error (.badPath k)⟩
    | .leaf s =>
      if m = cap then ⟨[], .error (.capacity .capOut k)⟩
      else
        let e := walkBits root cap bs (k + 1) root (m + 1) 0
        ⟨s :: e.out, e.stop⟩
    | .internal l r => walkBits root cap bs (k + 1) (.internal l r) m (since + 1)

/-- `fail(e)` of rule R81: `OUT_LEN` and `TRAIL_BITS` are 0 after any failing `DECODE`. -/
def State.decodeFail (s : State) (r : CmdResult) : State :=
  State.complete { s with outLen := 0, trailBits := 0 } r

/-- `DECODE` after its token step, with the tree it decodes with in `ROOT` (rules R81, R82). -/
def decodeHeld (s : State) : State :=
  if s.root = .nil then State.complete { s with outLen := 0, trailBits := s.bitLen } .ok
  else
    let e := walkBits s.root s.cfg.outCap.toNat s.bits 0 s.root 0 0
    let s1 := s.writeBytes .outBuf 0 e.out
    match e.stop with
    | .error r => s1.decodeFail r
    | .ok since =>
      State.complete
        { s1 with outLen := Word.ofNat e.out.length, trailBits := Word.ofNat since } .ok

/-- `DECODE` (rule R81). -/
def execDecode (s : State) : Host.Outcome State Fault Refusal :=
  if s.tokLen.toNat > Config.tokCap then .next (s.decodeFail (.capacity .capTok 0))
  else if s.bitLen.toNat > s.cfg.bitCap then .next (s.decodeFail (.capacity .capBit 0))
  else if s.tokLen = 0 then .next (decodeHeld s)
  else match deserialize s.tokBytes with
    | .error c => .next (State.decodeFail { s with root := .nil } (.corruptTree c))
    | .ok r => .next (decodeHeld { s with root := r })

end Sys2Proof.Machine
end

