-- ==== Sys2Proof/Machine/CodeTable.lean ====
section
/-! DEFINITION. The code table generator (rule R74) and the command `GEN_CODES` (rule R76). -/

namespace Sys2Proof.Machine

/-- `Walk(t, p)` (rule R74), which records the path to each leaf in the table, left subtree first; an absent
child records nothing. -/
def walk : Tree → BitString → CodeTable → CodeTable
  | .nil, _, ct => ct
  | .leaf s, p, ct => ct.set s.toNat (some p) s.isLt
  | .internal l r, p, ct => walk r (p ++ [true]) (walk l (p ++ [false]) ct)

/-- `GenCodes(root)` (rule R74). -/
def genCodes (root : Tree) : CodeTable := walk root [] (Vector.replicate 256 none)

/-- `GEN_CODES` (rule R76): all 256 entries replaced by the table of the held tree. -/
def execGenCodes (s : State) : Host.Outcome State Fault Refusal :=
  .next (State.complete { s with ct := genCodes s.root } .ok)

end Sys2Proof.Machine
end

