-- ==== Sys2Proof/Machine/TreeBuilder.lean ====
section
/-! DEFINITION. The frequency counter (rule R66) and the tree builder (rules R68 to R72), internal functions of
`ENCODE`. -/

namespace Sys2Proof.Machine

/-- `FreqCount` (rule R66): entry `s` is the number of times byte `s` occurs. -/
def freqCount (bytes : List Byte) : FreqTable :=
  ⟨⟨(List.range 256).map (fun s => Word.ofNat (bytes.count (Byte.ofNat s)))⟩, by simp⟩

/-- An entry `(w, q, t)` of the builder's queue (rule R68). The weight is exact; rule R67 says that it never
exceeds 32 bits. -/
structure Entry where
  /-- The weight `w`. -/
  w : Nat
  /-- The sequence number `q`. -/
  q : Nat
  /-- The tree `t`. -/
  t : Tree
  deriving DecidableEq, Repr

/-- The lexicographic order of the keys `(w, q)` (rules R68, R69). -/
def Entry.before (a b : Entry) : Bool := decide (a.w < b.w) || (a.w == b.w && decide (a.q < b.q))

/-- `ExtractMin(Q)` (rule R68): the entry with the least key, and the entries that stay. -/
def extractMin : List Entry → Option (Entry × List Entry)
  | [] => none
  | e :: es =>
    match extractMin es with
    | none => some (e, [])
    | some (m, rest) => if m.before e then some (m, e :: rest) else some (e, es)

/-- The loop "while |Q| > 1" of rule R68, from the next sequence number `q`. Each round makes the queue one
entry shorter, so its length bounds the rounds. The first extracted entry goes left (rule R70). -/
def mergeAll : Nat → List Entry → Nat → Tree
  | 0, _, _ => .nil
  | n + 1, queue, q =>
    match extractMin queue with
    | none => .nil
    | some (a, rest) =>
      match extractMin rest with
      | none => a.t
      | some (b, rest') => mergeAll n (⟨a.w + b.w, q, .internal a.t b.t⟩ :: rest') (q + 1)

/-- The symbols of nonzero count, in ascending order. -/
def presentSymbols (freq : FreqTable) : List Byte :=
  ((List.range 256).map Byte.ofNat).filter (fun s => countOf freq s != 0)

/-- The builder's first queue (rules R68, R69): one leaf per present symbol, numbered from 0 in ascending
symbol value. -/
def leafQueue (freq : FreqTable) : List Entry :=
  (presentSymbols freq).zipIdx.map (fun p => ⟨(countOf freq p.1).toNat, p.2, .leaf p.1⟩)

/-- `Build(FREQ)` (rule R68): no symbol gives `NIL` (rule R72), one gives the wrapper (rule R71), more give
the tree of the merges. -/
def build (freq : FreqTable) : Tree :=
  match leafQueue freq with
  | [] => .nil
  | [e] => .internal e.t .nil
  | queue => mergeAll queue.length queue queue.length

end Sys2Proof.Machine
end

