-- ==== Sys2Proof/Machine/Encoder.lean ====
section
/-! DEFINITION. The encoder and the command `ENCODE` (rules R77 to R80). -/

namespace Sys2Proof.Machine

/-- The code of a symbol. An absent entry, which rule R79 shows cannot arise in `ENCODE`, is read as the empty
bit-string (log entry 9). -/
def codeOf (ct : CodeTable) (s : Byte) : BitString := (entry ct s).getD []

/-- The bit-string of rule R78: the codes of the bytes, concatenated in input order. -/
def encodeBits (ct : CodeTable) (bytes : List Byte) : BitString := bytes.flatMap (codeOf ct)

/-- The check of rule R77 before any bit is written: the index of the first byte, counted from `i`, at which
the running total passes the capacity. -/
def firstPast (ct : CodeTable) (cap : Nat) : List Byte → Nat → Nat → Option Nat
  | [], _, _ => none
  | b :: bs, i, total =>
    if total + (codeOf ct b).length > cap then some i
    else firstPast ct cap bs (i + 1) (total + (codeOf ct b).length)

/-- The state in which the encoder proper runs: the fresh `FREQ`, `ROOT` and `CT` of the input (rules R77,
R80). -/
def State.freshTables (s : State) : State :=
  let freq := freqCount s.inBytes
  let root := build freq
  { s with freq := freq, root := root, ct := genCodes root }

/-- `ENCODE` (rule R77). The bits are written packed, which leaves the bytes that the rule's `BitWrite` loop
leaves, the pad bits 0 (rules R39, R40). -/
def execEncode (s : State) : Host.Outcome State Fault Refusal :=
  if s.inLen.toNat > s.cfg.inCap.toNat then
    .next (s.complete (.capacity .capIn 0))
  else
    let s1 := s.freshTables
    match firstPast s1.ct s1.cfg.bitCap s1.inBytes 0 0 with
    | some i => .next (State.complete { s1 with bitLen := 0 } (.capacity .capBit i))
    | none =>
      let bs := encodeBits s1.ct s1.inBytes
      .next (State.complete
        { s1.writeBytes .bitBuf 0 (packBits bs) with bitLen := Word.ofNat bs.length } .ok)

end Sys2Proof.Machine
end

