-- ==== Sys2Proof/Machine/Session.lean ====
section
/-! DEFINITION. The command `CLEAR` (rule R101) and every illegal command word (rule R102). -/

namespace Sys2Proof.Machine

/-- `CLEAR` (rule R101). -/
def execClear (s : State) : Host.Outcome State Fault Refusal :=
  .next (State.complete
    { s with freq := Vector.replicate 256 0, ct := Vector.replicate 256 none, root := .nil } .ok)

/-- The core step on an illegal word (rules R58, R102): it completes with `ILLEGAL_CMD`. -/
def illegalWord (s : State) : State := s.complete .illegalCmd

end Sys2Proof.Machine
end

