-- ==== Sys2Proof/Machine/Dispatch.lean ====
section
/-! DEFINITION. One arm per command (rule R55). -/

namespace Sys2Proof.Machine

def exec (i : Instr) (s : State) : Host.Outcome State Fault Refusal :=
  match i with
  | .encode => Sys2Proof.Machine.execEncode s
  | .serialize => Sys2Proof.Machine.execSerialize s
  | .decode => Sys2Proof.Machine.execDecode s
  | .deserialize => Sys2Proof.Machine.execDeserialize s
  | .genCodes => Sys2Proof.Machine.execGenCodes s
  | .clear => Sys2Proof.Machine.execClear s

end Sys2Proof.Machine
end

