-- ==== Sys2Proof/Machine/Flags.lean ====
section
/-! DEFINITION. The status word and the live views: `STATUS` (rule R18), `BUSY` (rule R32), `ERR`, `TREE_VALID`
and `NSYM` (rule R26). The block has no condition codes (rule R34). -/

namespace Sys2Proof.Machine

/-- `STATUS.BUSY`: 1 exactly when `PENDING` is not none (rule R32). -/
def State.busy (s : State) : Bool := s.pending.isSome

/-- `STATUS.ERR`: 1 exactly when `ERRCODE ≠ 0` (rule R18). -/
def State.err (s : State) : Bool := s.errCode != 0

/-- `STATUS.TREE_VALID`: 1 when `ROOT ≠ NIL` (rule R18). -/
def State.treeValid (s : State) : Bool := s.root != .nil

/-- The layout of `STATUS` (rule R18): bits 0 `BUSY`, 1 `DONE`, 2 `ERR`, 3 `VIOL`, 11:8 `ERRCODE`, 16
`TREE_VALID`, the others 0. -/
def statusWord (busy done err viol : Bool) (code : BitVec 4) (tree : Bool) : Word :=
  0#15 ++ BitVec.ofBool tree ++ 0#4 ++ code ++ 0#4 ++
    BitVec.ofBool viol ++ BitVec.ofBool err ++ BitVec.ofBool done ++ BitVec.ofBool busy

/-- The value of `STATUS` while no command is pending (rule R18). -/
def State.status (s : State) : Word :=
  statusWord s.busy s.done s.err s.viol s.errCode s.treeValid

/-- The value of `STATUS` while a command is pending (rule R44): `BUSY` 1, `DONE`, `ERR` and `ERRCODE` 0, the
current `VIOL`, and a `TREE_VALID` that may be anything. -/
def State.busyStatus (s : State) (anyTree : Bool) : Word :=
  statusWord true false false s.viol 0 anyTree

/-- `NSYM` (rule R26): how many symbols have a code in the table. -/
def State.nsym (s : State) : Nat := s.ct.toList.countP Option.isSome

end Sys2Proof.Machine
end

