-- ==== Sys2Proof/WellFormed.lean ====
section
/-! DEFINITION. The checks on terms the host can write down: every command is well formed (it has no
operand field, rule R56), a bus access is well formed when its space admits it (rule R41), and a
configuration is well formed when its capacities are at least 1 (rule R5). -/

namespace Sys2Proof

/-- Every command is well formed: no command has an operand field (rules R54, R56). -/
def Instr.wf : Instr → Bool
  | .encode => true
  | .serialize => true
  | .decode => true
  | .deserialize => true
  | .genCodes => true
  | .clear => true

/-- A host move is well formed when its access is admitted (rule R41). -/
def Machine.HostMove.wf : Machine.HostMove → Bool
  | .access a => a.admitted
  | .wait => true

/-- The lower bounds of rule R5; the upper bounds hold by the fields' widths. -/
def Config.wf (c : Config) : Bool :=
  decide (1 ≤ c.inCap.toNat) && decide (1 ≤ c.bitBufBytes.toNat) && decide (1 ≤ c.outCap.toNat)

end Sys2Proof
end

