-- ==== Sys2Proof/Machine/HostAccess.lean ====
section
/-! DEFINITION. What a host access does (rules R16, R17, R37, R41 to R44, R57) and the host's turn. -/

namespace Sys2Proof.Machine

/-- The value of a register while no command is pending (rules R16 to R27). -/
def State.regValue (s : State) : Reg → Word
  | .cmd => 0
  | .status => s.status
  | .errDetail => s.errDetail.setWidth 32
  | .errPos => s.errPos
  | .inLen => s.inLen
  | .bitLen => s.bitLen
  | .tokLen => s.tokLen
  | .outLen => s.outLen
  | .trailBits => s.trailBits
  | .nsym => Word.ofNat s.nsym
  | .capIn => s.cfg.inCap
  | .capBit => Word.ofNat s.cfg.bitCap
  | .capOut => s.cfg.outCap
  | .capTok => Word.ofNat Config.tokCap

/-- A 32-bit read of `REG` while no command is pending: reserved offsets and offsets beyond the space read 0
(rules R17, R37). -/
def State.regRead (s : State) (off : Nat) : Word :=
  match Reg.at? off with
  | some r => s.regValue r
  | none => 0

/-- A 32-bit write of a register while no command is pending (rule R17): `CMD` accepts a command (rule R57), the
`RW` registers store, the `R` registers ignore it. -/
def State.writeReg (s : State) (r : Reg) (v : Word) : State :=
  match r with
  | .cmd => s.accept v
  | .inLen => { s with inLen := v }
  | .bitLen => { s with bitLen := v }
  | .tokLen => { s with tokLen := v }
  | .status => s
  | .errDetail => s
  | .errPos => s
  | .outLen => s
  | .trailBits => s
  | .nsym => s
  | .capIn => s
  | .capBit => s
  | .capOut => s
  | .capTok => s

/-- A 32-bit write of `REG` while no command is pending; reserved offsets and offsets beyond the space ignore it
(rules R17, R37). -/
def State.regWrite (s : State) (off : Nat) (v : Word) : State :=
  match Reg.at? off with
  | some r => s.writeReg r v
  | none => s

/-- The value an admitted read returns while no command is pending, a byte zero-extended. -/
def State.idleRead (s : State) (sp : Space) (off : Nat) : Word :=
  match sp with
  | .reg => s.regRead off
  | _ => (s.readByte sp off).toWord

/-- The value an admitted read returns while a command is pending (rule R44): `STATUS` with an unspecified
`TREE_VALID`, any other register or byte an unspecified value, drawn (log entry 4). -/
def State.busyReadValue (s : State) (sp : Space) (off : Nat) : Word :=
  match sp with
  | .reg =>
    match Reg.at? off with
    | some .status => s.busyStatus ((Config.busyRead s.draws).getLsbD 16)
    | _ => Config.busyRead s.draws
  | _ => Byte.toWord ((Config.busyRead s.draws).setWidth 8)

/-- Record the value a read returned to the host. -/
def State.observe (s : State) (sp : Space) (off : Nat) (v : Word) : State :=
  { s with reads := ⟨sp, off, v⟩ :: s.reads }

/-- An admitted host read. It has no side effect in any space (rule R42); a draw advances the model's own
counter. Answers the value read and the state after. -/
def State.hostRead (s : State) (sp : Space) (off : Nat) : Word × State :=
  if s.busy then
    (s.busyReadValue sp off,
      State.observe { s with draws := s.draws + 1 } sp off (s.busyReadValue sp off))
  else (s.idleRead sp off, s.observe sp off (s.idleRead sp off))

/-- An admitted host write (rules R17, R37, R43, R44, R57). While a command is pending it is dropped and sets
`VIOL`, whatever it is aimed at. -/
def State.hostWrite (s : State) (sp : Space) (off : Nat) (v : Word) : State :=
  if s.busy then { s with viol := true }
  else match sp with
    | .reg => s.regWrite off v
    | _ => s.writeByte sp off (v.setWidth 8)

/-- An admitted host access. -/
def State.hostAccess (s : State) : Access → State
  | .read sp off _ => (s.hostRead sp off).2
  | .write sp off _ v => s.hostWrite sp off v

/-- The host's turn: its next move. An access that is not admitted is refused (rule R41); `WAIT` reads `STATUS`
and stays the next move until bit 0 of the value read is 0 (rule R65). A host with no move left passes. -/
def hostTurn (s : State) : Host.Outcome State Fault Refusal :=
  match s.host with
  | [] => .next s
  | .access a :: rest =>
    if a.admitted then .next ((s.withHost rest).hostAccess a)
    else .refused (.accessNotAdmitted a)
  | .wait :: rest =>
    let p := s.hostRead .reg Reg.status.offset
    if p.1.getLsbD 0 then .next p.2 else .next (p.2.withHost rest)

end Sys2Proof.Machine
end

