-- ==== Sys2Proof/Machine/CoreTurn.lean ====
section
/-! DEFINITION. The core's turn (rule R58) and the choice of whose turn a step is (rules R6, R46, R118, R127). -/

namespace Sys2Proof.Machine

/-- The word the core performs next: the latched command word (rules R32, R49). -/
def State.fetch (s : State) : Option Word := s.pending

/-- Perform one command word (rule R58). -/
def performWord (w : Word) (s : State) : Host.Outcome State Fault Refusal :=
  match decode w with
  | .ok i => exec i s
  | .error _ => .next (illegalWord s)

/-- The core's turn (rule R58): it has a step exactly when `PENDING` is a word; else it passes. -/
def coreTurn (s : State) : Host.Outcome State Fault Refusal :=
  match s.fetch with
  | some w => performWord w s
  | none => .next s

/-- Whose turn the next step is: the schedule's first turn; with an empty schedule the core's while a command is
pending (so that an enabled core step is taken, rule R127), else the host's. -/
def State.turn (s : State) : Turn :=
  match s.sched with
  | t :: _ => t
  | [] => if s.busy then .core else .host

/-- One step of the block and its host: the agent whose turn it is moves, the turn is used up. -/
def takeTurn (s : State) : Host.Outcome State Fault Refusal :=
  match s.turn with
  | .host => hostTurn s.spendTurn
  | .core => coreTurn s.spendTurn
  | .reset => .next s.spendTurn.resetBlock

/-- Place a command word where the core performs its next command: accepted as a `CMD` write accepts it
(rule R57), and the next turn given to the core. -/
def State.placeCommand (s : State) (w : Word) : State :=
  { s.accept w with sched := .core :: s.sched }

end Sys2Proof.Machine
end

