-- ==== Sys2Proof/Machine/Step.lean ====
section
/-! DEFINITION. The one step of the machine (rules R6, R58) and the placing of a command before it. -/

namespace Sys2Proof.Machine

/-- One step: a host move, a core step or a reset, in the total order of rule R46. With nothing pending and
nothing for the host to do the block is idle and keeps all state (rule R117). -/
def step (s : State) : Host.Outcome State Fault Refusal := takeTurn s

/-- `s` with the command word `w` latched and the next turn the core's, so that the next step performs it. -/
def State.withFetchWord (s : State) (nbits w : Nat) : State :=
  s.placeCommand (BitVec.ofNat 32 (w % 2 ^ nbits))

end Sys2Proof.Machine
end

