-- ==== Sys2Proof/Machine/HostProgram.lean ====
section
/-! DEFINITION. The host syntax of rules R64 and R65: the bus-access forms, the pseudo-instructions and their
expansions into the host's moves. -/

namespace Sys2Proof.Machine

/-- A line of a host program (rules R64, R65). -/
inductive HostLine where
  /-- `WR <reg>, <value>`. -/
  | wr (r : Reg) (v : Word)
  /-- `RD <reg>`. -/
  | rd (r : Reg)
  /-- `WB <space>[<off>], <byte>`. -/
  | wb (sp : Space) (off : Nat) (v : Byte)
  /-- `RB <space>[<off>]`. -/
  | rb (sp : Space) (off : Nat)
  /-- `CMD <mnemonic>`. -/
  | cmd (i : Instr)
  /-- `WAIT`. -/
  | wait
  /-- `LOAD <space>, <bytes>`. -/
  | load (sp : Space) (bytes : List Byte)
  /-- `EXPECT <reg>, <value>`. -/
  | expectReg (r : Reg) (v : Word)
  /-- `EXPECT <space>[<off>], <value>`. -/
  | expectByte (sp : Space) (off : Nat) (v : Byte)
  deriving DecidableEq, Repr

/-- `WR` as a move: a 32-bit write at the register's offset (rule R64). -/
def writeRegMove (r : Reg) (v : Word) : HostMove := .access (.write .reg r.offset 4 v)

/-- `RD` as a move (rule R64). -/
def readRegMove (r : Reg) : HostMove := .access (.read .reg r.offset 4)

/-- `WB` as a move (rule R64). -/
def writeByteMove (sp : Space) (off : Nat) (v : Byte) : HostMove :=
  .access (.write sp off 1 v.toWord)

/-- `RB` as a move (rule R64). -/
def readByteMove (sp : Space) (off : Nat) : HostMove := .access (.read sp off 1)

/-- The expansion of a line (rule R65). What an `EXPECT` asserts has no effect beyond the read. -/
def HostLine.expand : HostLine → List HostMove
  | .wr r v => [writeRegMove r v]
  | .rd r => [readRegMove r]
  | .wb sp off v => [writeByteMove sp off v]
  | .rb sp off => [readByteMove sp off]
  | .cmd i => [writeRegMove .cmd (encode i)]
  | .wait => [.wait]
  | .load sp bytes => bytes.zipIdx.map (fun p => writeByteMove sp p.2 p.1)
  | .expectReg r _ => [readRegMove r]
  | .expectByte sp off _ => [readByteMove sp off]

/-- The moves of a host program. -/
def hostMoves (prog : List HostLine) : List HostMove := prog.flatMap HostLine.expand

end Sys2Proof.Machine
end

