-- ==== Sys2Proof/Machine/Container.lean ====
section
/-! DEFINITION. The host's container format (rules R51 to R53). It is a convention of the host software, not part
of the block (rule R4): no step calls it. -/

namespace Sys2Proof.Machine

/-- An 8-byte little-endian field (rule R51). -/
def le64 (n : Nat) : List Byte := (List.range 8).map (fun i => Byte.ofNat (n / 256 ^ i))

/-- The value of a little-endian field (rule R51). -/
def leValue : List Byte → Nat
  | [] => 0
  | b :: bs => b.toNat + 256 * leValue bs

/-- What a container carries (rule R51). -/
structure Container where
  /-- The serialized tree. -/
  tree : List Byte
  /-- `BIT_COUNT`, the original bit count. -/
  bitCount : Nat
  /-- The packed bytes. -/
  packed : List Byte
  deriving DecidableEq, Repr

/-- The byte sequence of a container (rule R51). -/
def Container.bytes (c : Container) : List Byte :=
  le64 c.tree.length ++ c.tree ++ le64 c.packed.length ++ le64 c.bitCount ++ c.packed

/-- The container a host writes from the block's registers and buffers (rule R52). -/
def State.container (s : State) : Container where
  tree := s.tokBytes
  bitCount := s.bitLen.toNat
  packed := s.bytesOf .bitBuf ((s.bitLen.toNat + 7) / 8)

/-- The container a host reads, or its rejection as corrupt (rule R53): shorter than `24 + T + P` bytes, `T > 768`,
`P > BIT_BUF_BYTES`, or `n > 8 × P`. -/
def readContainer (c : Config) (bytes : List Byte) : Option Container :=
  let t := leValue (bytes.take 8)
  let p := leValue ((bytes.drop (8 + t)).take 8)
  let n := leValue ((bytes.drop (16 + t)).take 8)
  if bytes.length < 24 + t then none
  else if bytes.length < 24 + t + p then none
  else if t > Config.tokCap then none
  else if p > c.size .bitBuf then none
  else if n > 8 * p then none
  else some ⟨(bytes.drop 8).take t, n, (bytes.drop (24 + t)).take p⟩

/-- The host program that decodes a container (rule R53), `CLEAR` first when its tree is empty. -/
def Container.program (c : Container) : List HostLine :=
  (if c.tree = [] then [.cmd .clear, .wait] else []) ++
    [.load .tokBuf c.tree, .wr .tokLen (Word.ofNat c.tree.length),
     .load .bitBuf c.packed, .wr .bitLen (Word.ofNat c.bitCount),
     .cmd .decode, .wait]

end Sys2Proof.Machine
end

