-- ==== Sys2Proof/Safety.lean ====
section
/-! DEFINITION. What counts as a state in order, in the terms the claims use: the invariant every step keeps,
and a second form of the deserializer's check (rule R98). -/

namespace Sys2Proof.Machine

/-- A buffer is in order when it is canonical and lists no offset beyond its size (rules R36, R37). -/
def State.bufferOk (s : State) (sp : Space) : Prop :=
  (s.mem sp).wf ∧ ∀ c ∈ s.mem sp, c.1 < s.cfg.size sp

/-- What the three error fields may hold after a command completed (rules R104, R105): no error, `ILLEGAL_CMD`,
`CAPACITY` with a sub-cause 1 to 4, `CORRUPT_TREE` with a sub-cause 1 to 6, or `BAD_PATH`. -/
def reportOk (code detail : BitVec 4) (pos : Word) : Prop :=
  (code = 0 ∧ detail = 0 ∧ pos = 0) ∨ (code = 1 ∧ detail = 0 ∧ pos = 0) ∨
    (code = 2 ∧ 1 ≤ detail.toNat ∧ detail.toNat ≤ 4) ∨
    (code = 3 ∧ 1 ≤ detail.toNat ∧ detail.toNat ≤ 6) ∨ (code = 4 ∧ detail = 0)

/-- A state in order: the invariant that every step keeps. -/
structure State.Inv (s : State) : Prop where
  /-- The capacities are at least 1 (rule R5). -/
  config : s.cfg.wf = true
  /-- `ROOT` has a shape of rule R30. -/
  root : s.root.legal = true
  /-- `CT` is the table of some tree the block can hold (rules R31, R74). -/
  table : ∃ t : Tree, t.legal = true ∧ s.ct = genCodes t
  /-- Every buffer is canonical and within its size. -/
  buffers : ∀ sp, s.bufferOk sp
  /-- `BUSY = 1` implies `DONE = 0` (rule R18). -/
  busy : s.pending.isSome = true → s.done = false
  /-- `ERRCODE` is 0 from the accept to the completion and after reset (rules R35, R57). -/
  notDone : s.done = false → s.errCode = 0
  /-- The error fields of a completed command are ones rules R104 and R105 list. -/
  report : s.done = true → reportOk s.errCode s.errDetail s.errPos
  /-- `OUT_LEN` never exceeds `OUT_CAP` (rules R24, R81). -/
  outLen : s.outLen.toNat ≤ s.cfg.outCap.toNat
  /-- `TRAIL_BITS` never exceeds `BIT_CAP` (rules R25, R81). -/
  trailBits : s.trailBits.toNat ≤ s.cfg.bitCap

/-- `DECODE` in state `s` gets past its checks and its token step and decodes with the tree `root` (rule R81). -/
def State.decodesWith (s : State) (root : Tree) : Prop :=
  s.tokLen.toNat ≤ Config.tokCap ∧ s.bitLen.toNat ≤ s.cfg.bitCap ∧
    ((s.tokLen = 0 ∧ root = s.root) ∨ (s.tokLen ≠ 0 ∧ deserialize s.tokBytes = .ok root))

/-- The walk of `DECODE` over the bits of `BIT_BUF` with the tree `root` (rule R81). -/
def State.decodeWalk (s : State) (root : Tree) : WalkEnd :=
  walkBits root s.cfg.outCap.toNat s.bits 0 root 0 0

/-- The loop of rule R77 that writes a bit-string one `BitWrite` at a time, from bit `k`. -/
def State.bitWriteAll (s : State) (k : Nat) : BitString → State
  | [] => s
  | b :: bs => (s.bitWrite k b).bitWriteAll (k + 1) bs

/-- The scan of rule R98, which needs no stack: `need` is the number of subtrees still to read; an internal
marker adds 1, a leaf subtracts 1; the root is complete when `need` is 0. -/
def scanTokens : List Byte → (need pos : Nat) → List Byte → Except Corrupt Unit
  | [], 0, _, _ => .ok ()
  | [], _ + 1, pos, _ => .error ⟨.truncSubtree, pos⟩
  | _ :: _, 0, pos, _ => .error ⟨.trailing, pos⟩
  | m :: rest, need + 1, pos, seen =>
    if m = markerInternal then scanTokens rest (need + 2) (pos + 1) seen
    else if m = markerLeaf then
      match rest with
      | [] => .error ⟨.truncLeaf, pos + 1⟩
      | s :: rest' =>
        if s ∈ seen then .error ⟨.dupSymbol, pos + 1⟩
        else scanTokens rest' need (pos + 2) (s :: seen)
    else .error ⟨.badMarker, pos⟩

/-- The scan with the empty-sequence, wrapper and position-0 root-leaf checks of rule R90 kept (rule R98). -/
def scanDeserialize (toks : List Byte) : Except Corrupt Unit :=
  if toks = [] then .ok ()
  else if toks.length = 3 ∧ toks[0]? = some markerInternal ∧ toks[1]? = some markerLeaf then .ok ()
  else if toks[0]? = some markerLeaf then .error ⟨.rootLeaf, 0⟩
  else scanTokens toks 1 0 []

/-- The symbols of the leaf tokens of a byte sequence made of whole tokens, read from its start, in order; `none` when a
byte where a token must start is no marker, or the last leaf token lacks its symbol. The byte after a leaf marker is
always the symbol, whatever its value (rules R61, R62). -/
def leafSymbols : List Byte → Option (List Byte)
  | [] => some []
  | m :: rest =>
    if m = markerInternal then leafSymbols rest
    else if m = markerLeaf then
      match rest with
      | [] => none
      | s :: rest' => (leafSymbols rest').map (fun l => s :: l)
    else none

end Sys2Proof.Machine
end

