-- ==== Sys2Proof/Certificates/Slice0/Obligations.lean ====
section
/-! DEFINITION. The statements for the provers. Each docstring names the rule it formalises, or says what the
statement rests on where part of it is the model's choice. -/

open Sys2Proof Sys2Proof.Machine

/-! ## Command words -/

/-- Rule R55: the six words of the opcode map decode to their commands, decoding an encoded command gives it back, and
the reserved opcodes 0x0 and 0x7 to 0xF are no command. -/
def Obligations.CommandWordsDecodeToTheirCommands : Prop :=
  decode 0x00000001 = .ok .encode ∧ decode 0x00000002 = .ok .serialize ∧
  decode 0x00000003 = .ok .decode ∧ decode 0x00000004 = .ok .deserialize ∧
  decode 0x00000005 = .ok .genCodes ∧ decode 0x00000006 = .ok .clear ∧
  (∀ i : Instr, i.wf = true → decode (encode i) = .ok i) ∧
  ∀ w : Word, w.extractLsb' 0 4 = 0 ∨ 7 ≤ (w.extractLsb' 0 4).toNat → ∃ e, decode w = .error e

/-- Rule R60, first sentence: exactly six of the 2^32 words are legal; each is the encoding of its command, so no bit
of a word is ignored. -/
def Obligations.OnlySixWordsAreCommands : Prop :=
  ∀ w : Word, ((∃ i, decode w = .ok i) ↔ 1 ≤ w.toNat ∧ w.toNat ≤ 6) ∧
    ∀ i, decode w = .ok i → w = encode i

/-! ## Steps of the core -/

/-- Rule R58: when it is the core's turn and the latched word is a legal command, the step is that command's meaning.
The turn used up is the model's own bookkeeping (log entry 5). -/
def Obligations.CoreStepPerformsTheLatchedCommand : Prop :=
  ∀ (s : State) (w : Word) (i : Instr), s.turn = .core → s.pending = some w → decode w = .ok i →
    step s = exec i { s with sched := s.sched.tail }

/-- Rules R58 and R102: on an illegal word the core's step completes with `ILLEGAL_CMD`, sub-cause and position 0,
and changes nothing else. The turn used up is the model's own bookkeeping (log entry 5). -/
def Obligations.IllegalWordsCompleteWithIllegalCmd : Prop :=
  ∀ (s : State) (w : Word), s.turn = .core → s.pending = some w → ¬ (1 ≤ w.toNat ∧ w.toNat ≤ 6) →
    step s = .next { s with
      sched := s.sched.tail
      pending := none
      done := true
      errCode := 1
      errDetail := 0
      errPos := 0 }

/-- Rule R127 with the model's default schedule (log entry 5): an enabled core step is taken, it always ends, and it
leaves the block idle with the command done. -/
def Obligations.PendingCommandIsPerformed : Prop :=
  ∀ s : State, s.sched = [] → s.pending.isSome = true →
    ∃ t, step s = .next t ∧ t.pending = none ∧ t.done = true ∧ t.viol = s.viol

/-- Rules R65 and R127: however many turns the host is given first, a `WAIT` ends once the core has had its step, with
the command done and the input and the parameters as they were. The turns and the host's moves are the model's own (log entries 1 and 5). -/
def Obligations.WaitEndsAfterTheCommand : Prop :=
  ∀ (s : State) (w : Word) (rest : List HostMove) (n : Nat), s.pending = some w →
    s.host = .wait :: rest → s.sched = List.replicate n Turn.host →
    ∃ t, Host.Core.run core (n + 2) s = .next t ∧ t.pending = none ∧ t.done = true ∧ t.host = rest ∧
      t.cfg = s.cfg ∧ t.inLen = s.inLen ∧ t.inBuf = s.inBuf

/-- Rule R117: with nothing pending and no move of the host or the platform left, the block keeps all state. That
nothing is left for the host to do is the model's own notion (log entries 1 and 5). -/
def Obligations.IdleBlockKeepsItsState : Prop :=
  ∀ s : State, s.pending = none → s.host = [] → s.sched = [] → step s = .next s

/-! ## Accept, status and host accesses -/

/-- Rule R57: a host write of any word to `CMD` while no command is pending latches it and clears `DONE`, `ERR`,
`ERRCODE` and `VIOL`; nothing else changes, and `STATUS` then reads `BUSY` 1 with the other four 0. The turn used up
and the moves left are the model's own bookkeeping (log entries 1 and 5). -/
def Obligations.CmdWriteLatchesTheCommand : Prop :=
  ∀ (s : State) (w : Word) (rest : List HostMove), s.turn = .host → s.pending = none →
    s.host = .access (.write .reg 0x00 4 w) :: rest →
    ∃ t, step s = .next t ∧
      t = { s with
        sched := s.sched.tail
        host := rest
        pending := some w
        done := false
        errCode := 0
        viol := false } ∧
      t.status.extractLsb' 0 4 = 0b0001#4 ∧ t.status.extractLsb' 8 4 = 0#4

/-- Rule R109: a host write while a command is pending is dropped and sets `VIOL`, the running command is unaffected,
and the next accept clears `VIOL`. The turn used up and the moves left are the model's own bookkeeping (log entries 1
and 5). That an admitted write beyond a space or at a reserved offset is dropped and sets `VIOL` like any other is the
model's reading of rule R44 (log entry 6, DEDUCED). -/
def Obligations.WritesWhileBusyAreDropped : Prop :=
  (∀ (s : State) (sp : Space) (off width : Nat) (v : Word) (rest : List HostMove), s.turn = .host →
    s.pending.isSome = true → s.host = .access (.write sp off width v) :: rest →
    (Access.write sp off width v).admitted = true →
    step s = .next { s with sched := s.sched.tail, host := rest, viol := true }) ∧
  (∀ (s : State) (w : Word) (rest : List HostMove), s.turn = .host → s.pending = none →
    s.host = .access (.write .reg 0x00 4 w) :: rest → ∃ t, step s = .next t ∧ t.viol = false)

/-- Rule R42, first sentence: a host read has no side effect in any space. Only the model's own bookkeeping moves: the
host's moves left and its record of values read (log entry 1), the draw counter (log entry 4) and the turn used up
(log entry 5); an idle read of a byte returns the byte the space holds. That a read while busy beyond a space or at a
reserved offset draws too is log entry 6 (DEDUCED). -/
def Obligations.HostReadsHaveNoSideEffect : Prop :=
  ∀ (s : State) (sp : Space) (off width : Nat) (rest : List HostMove), s.turn = .host →
    s.host = .access (.read sp off width) :: rest → (Access.read sp off width).admitted = true →
    ∃ v : Word,
      step s = .next { s with
        sched := s.sched.tail
        host := rest
        reads := ⟨sp, off, v⟩ :: s.reads
        draws := if s.pending.isSome then s.draws + 1 else s.draws } ∧
      (s.pending = none → sp ≠ .reg → v = (s.readByte sp off).setWidth 32)

/-- Rule R44, first item: a read of `STATUS` while a command is pending shows `BUSY` 1, `DONE`, `ERR` and `ERRCODE`
0, the current `VIOL` and 0 in the reserved bits. `TREE_VALID` is unspecified and nothing is said of it. The turn
used up and the moves left are the model's own bookkeeping (log entries 1 and 5). -/
def Obligations.BusyStatusReadShowsBusy : Prop :=
  ∀ (s : State) (rest : List HostMove), s.turn = .host → s.pending.isSome = true →
    s.host = .access (.read .reg 0x04 4) :: rest →
    ∃ v t, step s = .next t ∧ t.reads = ⟨.reg, 0x04, v⟩ :: s.reads ∧
      v.getLsbD 0 = true ∧ v.getLsbD 1 = false ∧ v.getLsbD 2 = false ∧ v.getLsbD 3 = s.viol ∧
      v.extractLsb' 4 4 = 0 ∧ v.extractLsb' 8 4 = 0 ∧ v.extractLsb' 12 4 = 0 ∧ v.extractLsb' 17 15 = 0

/-- Rule R18: the fields of `STATUS`. `BUSY` is 1 exactly when a command is pending (rule R32), `ERR` exactly when
`ERRCODE` is not 0, `TREE_VALID` exactly when `ROOT` is not `NIL`, reserved bits read 0. -/
def Obligations.StatusFieldsReadTheirState : Prop :=
  ∀ s : State,
    (s.status.getLsbD 0 = true ↔ s.pending ≠ none) ∧ s.status.getLsbD 1 = s.done ∧
    (s.status.getLsbD 2 = true ↔ s.errCode ≠ 0) ∧ s.status.getLsbD 3 = s.viol ∧
    s.status.extractLsb' 4 4 = 0 ∧ s.status.extractLsb' 8 4 = s.errCode ∧
    s.status.extractLsb' 12 4 = 0 ∧ (s.status.getLsbD 16 = true ↔ s.root ≠ .nil) ∧
    s.status.extractLsb' 17 15 = 0

/-- Rules R16, R17, R19 to R27 and R37: what a read of each register returns while no command is pending; reserved
offsets and offsets at or beyond 64 read 0. `NSYM` counts the symbols whose entry is present. The turn used up and
the moves left are the model's own bookkeeping (log entries 1 and 5). -/
def Obligations.RegisterReadsReturnTheirValues : Prop :=
  ∀ (s : State) (off : Nat) (rest : List HostMove), s.turn = .host → s.pending = none →
    s.host = .access (.read .reg off 4) :: rest → off % 4 = 0 →
    step s = .next { s with
      sched := s.sched.tail
      host := rest
      reads := ⟨.reg, off,
        if off = 0x04 then s.status
        else if off = 0x08 then s.errDetail.setWidth 32
        else if off = 0x0C then s.errPos
        else if off = 0x10 then s.inLen
        else if off = 0x14 then s.bitLen
        else if off = 0x18 then s.tokLen
        else if off = 0x1C then s.outLen
        else if off = 0x20 then s.trailBits
        else if off = 0x24 then
          BitVec.ofNat 32 ((List.range 256).countP (fun n => (entry s.ct (Byte.ofNat n)).isSome))
        else if off = 0x28 then s.cfg.inCap
        else if off = 0x2C then BitVec.ofNat 32 (8 * s.cfg.bitBufBytes.toNat)
        else if off = 0x30 then s.cfg.outCap
        else if off = 0x34 then 768
        else 0⟩ :: s.reads }

/-- Rules R16, R17 and R37: a 32-bit write while no command is pending stores all 32 bits of an `RW` register and is
ignored, with no other effect, by an `R` register, a reserved offset and an offset beyond the space. The turn used
up and the moves left are the model's own bookkeeping (log entries 1 and 5). -/
def Obligations.RegisterWritesFollowTheirAccessKind : Prop :=
  ∀ (s : State) (off : Nat) (v : Word) (rest : List HostMove), s.turn = .host → s.pending = none →
    s.host = .access (.write .reg off 4 v) :: rest → off % 4 = 0 → off ≠ 0x00 →
    step s = .next { s with
      sched := s.sched.tail
      host := rest
      inLen := if off = 0x10 then v else s.inLen
      bitLen := if off = 0x14 then v else s.bitLen
      tokLen := if off = 0x18 then v else s.tokLen }

/-- Rule R41: `REG` admits a 32-bit access at a multiple of 4, every other space a 1-byte access; any other access
is refused by name, and an admitted one is performed. The turn used up and the moves left are the model's own
bookkeeping (log entries 1 and 5). -/
def Obligations.OnlyAdmittedAccessesArePerformed : Prop :=
  ∀ (s : State) (a : Access) (rest : List HostMove), s.turn = .host → s.host = .access a :: rest →
    ((∃ t, step s = .next t) ↔
      match a with
      | .read sp off width => if sp = .reg then width = 4 ∧ off % 4 = 0 else width = 1
      | .write sp off width _ => if sp = .reg then width = 4 ∧ off % 4 = 0 else width = 1) ∧
    (step s = .refused (.accessNotAdmitted a) ∨ ∃ t, step s = .next t)

/-- Rule R37, last sentence: an access at an offset at or beyond the space's size reads 0 and ignores a write. The
turn used up and the moves left are the model's own bookkeeping (log entries 1 and 5). -/
def Obligations.AccessesBeyondASpaceReadZero : Prop :=
  ∀ (s : State) (sp : Space) (off width : Nat) (v : Word) (rest : List HostMove), s.turn = .host →
    s.pending = none → s.cfg.size sp ≤ off →
    ((s.host = .access (.read sp off width) :: rest → (Access.read sp off width).admitted = true →
      step s = .next { s with
        sched := s.sched.tail, host := rest, reads := ⟨sp, off, 0⟩ :: s.reads }) ∧
    (s.host = .access (.write sp off width v) :: rest → (Access.write sp off width v).admitted = true →
      step s = .next { s with sched := s.sched.tail, host := rest }))

/-- Rules R36, R38 and R42: a byte the host writes inside a buffer reads back, every other byte of every buffer stays,
and nothing else changes. The turn used up and the moves left are the model's own bookkeeping (log entries 1 and 5). A
write's value is any 32-bit word, and that its low 8 bits are stored is the model's choice (log entry 8, DESIGN
CHOICE). -/
def Obligations.BufferWritesReadBack : Prop :=
  ∀ (s : State) (sp : Space) (off : Nat) (v : Word) (rest : List HostMove), s.turn = .host →
    s.pending = none → sp.isBuffer = true → off < s.cfg.size sp →
    s.host = .access (.write sp off 1 v) :: rest →
    ∃ t, step s = .next t ∧
      t = { s with
        sched := s.sched.tail
        host := rest
        inBuf := t.inBuf
        bitBuf := t.bitBuf
        tokBuf := t.tokBuf
        outBuf := t.outBuf } ∧
      t.readByte sp off = v.setWidth 8 ∧
      ∀ sp' a, sp' ≠ sp ∨ a ≠ off → t.readByte sp' a = s.readByte sp' a

/-- Rule R43: a host write to `CTAB` is ignored and has no other effect while no command is pending; while one is,
rule R44 applies: it is dropped and sets `VIOL`. The turn used up and the moves left are the model's own bookkeeping
(log entries 1 and 5). That the busy clause holds at offsets beyond the space too is the model's reading (log entry 6,
DEDUCED). -/
def Obligations.CodeTableSpaceIgnoresWrites : Prop :=
  ∀ (s : State) (off : Nat) (v : Word) (rest : List HostMove), s.turn = .host →
    s.host = .access (.write .ctab off 1 v) :: rest →
    (s.pending = none → step s = .next { s with sched := s.sched.tail, host := rest }) ∧
    (s.pending.isSome = true →
      step s = .next { s with sched := s.sched.tail, host := rest, viol := true })

/-- Rule R45: the bytes of the 64-byte entry of a symbol in `CTAB`. A code longer than 255 bits, which no state that a
run reaches holds, shows its length modulo 256 in byte 0: the model's choice (log entry 16, DESIGN CHOICE). -/
def Obligations.CodeTableViewShowsTheEntry : Prop :=
  ∀ (s : State) (sym : Byte) (j : Nat), j < 64 →
    match entry s.ct sym with
    | none => s.readByte .ctab (64 * sym.toNat + j) = 0
    | some c =>
      (j = 0 → s.readByte .ctab (64 * sym.toNat + j) = BitVec.ofNat 8 c.length) ∧
      (1 ≤ j → j ≤ 31 → s.readByte .ctab (64 * sym.toNat + j) = 0) ∧
      (32 ≤ j → ∀ i < 8,
        (s.readByte .ctab (64 * sym.toNat + j)).getLsbD (7 - i) = c.getD (8 * (j - 32) + i) false)

/-! ## Reset -/

/-- Rule R35: every piece of state after reset, for every choice of the open parameters. A buffer byte holds an
unconstrained value, the one the configuration leaves free. The free value of an unwritten byte is the model's own
form for the rule's UNSPECIFIED (log entry 3). -/
def Obligations.ResetLeavesTheRulesValues : Prop :=
  ∀ c : Config, let s := State.resetWith c
    s.pending = none ∧ s.status = 0 ∧ s.errDetail = 0 ∧ s.errPos = 0 ∧
    s.inLen = 0 ∧ s.bitLen = 0 ∧ s.tokLen = 0 ∧ s.outLen = 0 ∧ s.trailBits = 0 ∧ s.nsym = 0 ∧
    s.regValue .capIn = c.inCap ∧ s.regValue .capBit = BitVec.ofNat 32 (8 * c.bitBufBytes.toNat) ∧
    s.regValue .capOut = c.outCap ∧ s.regValue .capTok = 768 ∧ s.regValue .cmd = 0 ∧
    (∀ x, countOf s.freq x = 0) ∧ s.root = .nil ∧ (∀ x, entry s.ct x = none) ∧
    (∀ a, s.readByte .ctab a = 0) ∧
    ∀ sp a, sp.isBuffer = true → a < c.size sp → s.readByte sp a = Config.unwrittenByte s.epoch sp a

/-- Rule R118: reset, asserted at any point between host accesses and core steps, sets every piece of the block's
state to its value of rule R35; a latched command is discarded and the buffers hold new unconstrained values. That a
reset is a turn, and that the epoch counts resets, is the model's own (log entries 3 and 5). That the parameters, the
host's moves, the schedule's rest, the values read and the draws stay is the model's reading (log entry 7, DEDUCED). -/
def Obligations.ResetFromEveryState : Prop :=
  ∀ s : State, s.turn = .reset →
    ∃ t, step s = .next t ∧
      t = { State.resetWith s.cfg with
        epoch := s.epoch + 1
        draws := s.draws
        host := s.host
        sched := s.sched.tail
        reads := s.reads } ∧
      ∀ sp a, sp.isBuffer = true → a < s.cfg.size sp →
        t.readByte sp a = Config.unwrittenByte (s.epoch + 1) sp a

/-! ## CLEAR and GEN_CODES -/

/-- Rule R101: `CLEAR` empties `FREQ`, `CT` and `ROOT`, completes without error and changes nothing else. -/
def Obligations.ClearDiscardsTreeAndTable : Prop :=
  ∀ s : State, ∃ t, exec .clear s = .next t ∧
    t = { s with
      freq := t.freq
      ct := t.ct
      root := .nil
      pending := none
      done := true
      errCode := 0
      errDetail := 0
      errPos := 0 } ∧
    (∀ x, countOf t.freq x = 0) ∧ (∀ x, entry t.ct x = none) ∧ t.nsym = 0 ∧ t.treeValid = false

/-- Rules R74 and R76: `GEN_CODES` replaces all 256 entries by the paths of the held tree, 0 for a left and 1 for a
right descent; a symbol that is no leaf has none. It never fails and changes nothing else. -/
def Obligations.GenCodesRecordsEveryLeafsPath : Prop :=
  ∀ s : State, ∃ t, exec .genCodes s = .next t ∧
    t = { s with
      ct := t.ct
      pending := none
      done := true
      errCode := 0
      errDetail := 0
      errPos := 0 } ∧
    (s.root.legal = true → ∀ (x : Byte) (p : BitString), entry t.ct x = some p ↔ s.root.follow p = .leaf x)

/-- Rules R26 and R76: after `GEN_CODES`, `NSYM` is the number of leaves of the held tree, at most 256. -/
def Obligations.NsymCountsTheLeavesAfterGenCodes : Prop :=
  ∀ s : State, s.root.legal = true →
    ∃ t, exec .genCodes s = .next t ∧ t.nsym = s.root.leaves.length ∧ t.nsym ≤ 256

/-- Rule R76, corner case: after an `ENCODE` whose input fits, `GEN_CODES` rewrites the same table, and after one
without error it changes nothing at all. -/
def Obligations.GenCodesAfterEncodeChangesNothing : Prop :=
  ∀ s : State, s.inLen.toNat ≤ s.cfg.inCap.toNat →
    ∃ t u, exec .encode s = .next t ∧ exec .genCodes t = .next u ∧ u.ct = t.ct ∧
      (t.errCode = 0 → u = t)

/-- Rule R75, item 1: the codes of a tree the block can hold are prefix-free. -/
def Obligations.CodesArePrefixFree : Prop :=
  ∀ (t : Tree) (x y : Byte) (p q : BitString), t.legal = true → x ≠ y →
    entry (genCodes t) x = some p → entry (genCodes t) y = some q → ¬ p <+: q

/-- Rule R75, item 2: the code set of a full tree is complete; that of a wrapper is not, "1" is no prefix of a code and
has none as a prefix. -/
def Obligations.FullTreeCodesAreComplete : Prop :=
  (∀ (t : Tree) (bits : BitString), t.isFullTree = true →
    ∃ x p, entry (genCodes t) x = some p ∧ (p <+: bits ∨ bits <+: p)) ∧
  (∀ (s x : Byte) (p : BitString), entry (genCodes (.wrapper s)) x = some p →
    ¬ (p <+: [true]) ∧ ¬ ([true] <+: p))

/-- Rules R7, R31 and R63: every code of a tree the block can hold is 1 to 255 bits long. -/
def Obligations.CodesAreOneTo255BitsLong : Prop :=
  ∀ (t : Tree) (x : Byte) (p : BitString), t.legal = true → entry (genCodes t) x = some p →
    1 ≤ p.length ∧ p.length ≤ 255

/-! ## The serializer and the deserializer -/

/-- Rule R88: `NIL` serializes to 0 bytes, the wrapper to 3, a full tree with L leaves to 3L − 1, at most 767. -/
def Obligations.SerializedLengthIsBounded : Prop :=
  (serialize .nil).length = 0 ∧ (∀ s, (serialize (.wrapper s)).length = 3) ∧
    (∀ t : Tree, t.isFullTree = true → (serialize t).length + 1 = 3 * t.leaves.length) ∧
    ∀ t : Tree, t.legal = true → (serialize t).length ≤ 767

/-- Rule R89: `SERIALIZE` completes without error, and the bytes of `TOK_BUF` beyond its tokens and all other state
stay; for a tree the block can hold it writes the tokens from offset 0 and sets `TOK_LEN` to their number. -/
def Obligations.SerializeWritesTheHeldTree : Prop :=
  ∀ s : State, ∃ t, exec .serialize s = .next t ∧
    t = { s with
      tokBuf := t.tokBuf
      tokLen := t.tokLen
      pending := none
      done := true
      errCode := 0
      errDetail := 0
      errPos := 0 } ∧
    (∀ a, (serialize s.root).length ≤ a → t.readByte .tokBuf a = s.readByte .tokBuf a) ∧
    (s.root.legal = true → t.tokLen.toNat = (serialize s.root).length ∧
      ∀ i (h : i < (serialize s.root).length), t.readByte .tokBuf i = (serialize s.root)[i])

/-- Rules R30, R61, R90, R92 and R99: the deserializer accepts exactly the serializations of the trees the block can
hold, and gives each back. -/
def Obligations.DeserializerAcceptsExactlySerializedTrees : Prop :=
  ∀ (toks : List Byte) (t : Tree), deserialize toks = .ok t ↔ t.legal = true ∧ toks = serialize t

/-- Rule R99 on the machine: after `SERIALIZE`, `DESERIALIZE` completes without error and holds the same tree
again, from which the same code table is generated. -/
def Obligations.SerializeThenDeserializeKeepsTheTree : Prop :=
  ∀ s : State, s.root.legal = true →
    ∃ t u, exec .serialize s = .next t ∧ exec .deserialize t = .next u ∧ u.root = s.root ∧
      u.errCode = 0 ∧ genCodes u.root = genCodes s.root

/-- Rule R100: the three results of `DESERIALIZE`, each with all the state it leaves: `CAP_TOK` with no state change,
`CORRUPT_TREE` with `ROOT = NIL`, or the new tree. -/
def Obligations.DeserializeLoadsOrFails : Prop :=
  ∀ s : State,
    (768 < s.tokLen.toNat →
      exec .deserialize s = .next { s with
        pending := none, done := true, errCode := 2, errDetail := 3, errPos := 0 }) ∧
    (s.tokLen.toNat ≤ 768 → ∀ c, deserialize s.tokBytes = .error c →
      exec .deserialize s = .next { s with
        root := .nil, pending := none, done := true
        errCode := 3, errDetail := c.cause.bits, errPos := BitVec.ofNat 32 c.pos }) ∧
    (s.tokLen.toNat ≤ 768 → ∀ r, deserialize s.tokBytes = .ok r →
      exec .deserialize s = .next { s with
        root := r, pending := none, done := true, errCode := 0, errDetail := 0, errPos := 0 })

/-- Rules R62, R93 to R97 and R105: what each reported failure says of the sequence, in terms of its tokens. A bad marker
is a byte where a token must start; a truncation is at the end, after a last leaf marker or after whole tokens; the bytes
before a trailing one are a tree; a repeated symbol is the symbol of a leaf token that an earlier leaf token already has. -/
def Obligations.CorruptPositionsNameTheOffendingByte : Prop :=
  ∀ (toks : List Byte) (c : Corrupt), deserialize toks = .error c →
    match c.cause with
    | .badMarker => (∃ b, toks[c.pos]? = some b ∧ b ≠ 0x30 ∧ b ≠ 0x31) ∧
        (leafSymbols (toks.take c.pos)).isSome = true
    | .truncLeaf => c.pos = toks.length ∧ ∃ before, toks = before ++ [0x31] ∧
        (leafSymbols before).isSome = true
    | .truncSubtree => c.pos = toks.length ∧ (leafSymbols toks).isSome = true
    | .trailing => c.pos < toks.length ∧ ∃ t, deserialize (toks.take c.pos) = .ok t
    | .rootLeaf => c.pos = 0 ∧ toks[0]? = some 0x31
    | .dupSymbol => ∃ before sym rest earlier, toks = before ++ 0x31 :: sym :: rest ∧
        c.pos = before.length + 1 ∧ leafSymbols before = some earlier ∧ sym ∈ earlier

/-- Rule R98: the scan that keeps only the number of subtrees still to read reports the same result at the same
position as the deserializer, for every byte sequence. -/
def Obligations.StacklessScanReportsTheSameFailure : Prop :=
  ∀ toks : List Byte,
    (deserialize toks).map (fun _ => ()) = scanDeserialize toks

/-- Rule R93, last sentence: no byte of `TOK_BUF` at offset `TOK_LEN` or beyond is ever read by `DESERIALIZE`: two
states whose `TOK_BUF` agrees below `TOK_LEN` end with the same tree and the same report. -/
def Obligations.DeserializeReadsOnlyTokLenBytes : Prop :=
  ∀ s s' : State, s'.tokLen = s.tokLen → s'.root = s.root →
    (∀ a < s.tokLen.toNat, s'.readByte .tokBuf a = s.readByte .tokBuf a) →
    ∃ t t', exec .deserialize s = .next t ∧ exec .deserialize s' = .next t' ∧
      t'.root = t.root ∧ t'.errCode = t.errCode ∧ t'.errDetail = t.errDetail ∧ t'.errPos = t.errPos

/-! ## The builder -/

/-- Rules R68, R69 and R70, the builder's queue. It starts with one entry `(FREQ[s], rank, Leaf s)` for each present
symbol, in ascending symbol value; with two or more, the merging starts at the next number after the leaves'.
`ExtractMin` removes one entry, and no entry that stays has a lesser `(weight, sequence)`; a merge takes the two it
extracts, the first as the left child, and puts back one entry of their summed weight under the next sequence number; a
queue of one entry ends with its tree. The first argument of `mergeAll` bounds the rounds, and each merge uses one. -/
def Obligations.MergesTakeTheTwoLeastKeys : Prop :=
  (∀ freq : FreqTable,
    let present := (List.range 256).filter (fun n => decide (countOf freq (Byte.ofNat n) ≠ 0))
    (leafQueue freq).length = present.length ∧
      ∀ (i : Nat) (h : i < present.length), (leafQueue freq)[i]? =
        some ⟨(countOf freq (Byte.ofNat present[i])).toNat, i, .leaf (Byte.ofNat present[i])⟩) ∧
  (∀ freq : FreqTable, 2 ≤ (leafQueue freq).length →
    build freq = mergeAll (leafQueue freq).length (leafQueue freq) (leafQueue freq).length) ∧
  (∀ (queue : List Entry) (e : Entry) (rest : List Entry), extractMin queue = some (e, rest) →
    (e :: rest).Perm queue ∧
      ∀ x ∈ rest, e.w < x.w ∨ (e.w = x.w ∧ e.q ≤ x.q)) ∧
  (∀ (n : Nat) (queue rest rest' : List Entry) (a b : Entry) (q : Nat),
    extractMin queue = some (a, rest) → extractMin rest = some (b, rest') →
    mergeAll (n + 1) queue q = mergeAll n (⟨a.w + b.w, q, .internal a.t b.t⟩ :: rest') (q + 1)) ∧
  ∀ (n : Nat) (e : Entry) (q : Nat), mergeAll (n + 1) [e] q = e.t

/-- Rules R71, R72 and R73: the builder gives `NIL` for no present symbol, the wrapper for one, and for more a full
tree; its leaves are the present symbols, each once. -/
def Obligations.BuiltTreeHasThePresentSymbols : Prop :=
  ∀ freq : FreqTable,
    (build freq).leaves.Perm (((List.range 256).map Byte.ofNat).filter (fun s => countOf freq s != 0)) ∧
    ((∀ x, countOf freq x = 0) → build freq = .nil) ∧
    (∀ s, countOf freq s ≠ 0 → (∀ x, x ≠ s → countOf freq x = 0) → build freq = .wrapper s) ∧
    (∀ x y, x ≠ y → countOf freq x ≠ 0 → countOf freq y ≠ 0 → (build freq).isFullTree = true)

/-! ## ENCODE -/

/-- Rule R77, `CAP_IN`: `IN_LEN > IN_CAP` ends `ENCODE` with `CAPACITY`, sub-cause 1, and nothing else changes. -/
def Obligations.EncodeInputTooLongChangesNothing : Prop :=
  ∀ s : State, s.cfg.inCap.toNat < s.inLen.toNat →
    exec .encode s = .next { s with
      pending := none, done := true, errCode := 2, errDetail := 1, errPos := 0 }

/-- Rules R66, R67 and R80: an `ENCODE` whose input fits replaces `FREQ` by the exact counts of the input, `ROOT` by the
tree built from them and `CT` by that tree's table, whatever they held before, also when it ends with `CAP_BIT`. -/
def Obligations.EncodeBuildsFreshTables : Prop :=
  ∀ s : State, s.inLen.toNat ≤ s.cfg.inCap.toNat →
    ∃ t, exec .encode s = .next t ∧
      (∀ x, (countOf t.freq x).toNat = s.inBytes.count x) ∧
      t.root = build t.freq ∧ t.ct = genCodes t.root ∧ t.root.legal = true

/-- Rule R79: after an `ENCODE` whose input fits, every byte of the input has a present entry, so the encoder's failure
cannot occur and code 5 is not raised. -/
def Obligations.EveryInputByteHasACode : Prop :=
  ∀ s : State, s.inLen.toNat ≤ s.cfg.inCap.toNat →
    ∃ t, exec .encode s = .next t ∧ t.errCode ≠ 5 ∧
      ∀ b ∈ s.inBytes, ∃ p, entry t.ct b = some p

/-- Rule R77, `CAP_BIT`: when the encoded length would exceed `BIT_CAP`, the new tables are kept, `BIT_LEN` is 0,
`BIT_BUF` and all else is unchanged, and `ERR_POS` is the index of the first input byte at which the running total passes
`BIT_CAP`. -/
def Obligations.EncodePastBitCapacityReportsTheByte : Prop :=
  ∀ s : State, s.inLen.toNat ≤ s.cfg.inCap.toNat →
    s.cfg.bitCap < (encodeBits (genCodes (build (freqCount s.inBytes))) s.inBytes).length →
    ∃ t, exec .encode s = .next t ∧
      t = { s with
        freq := t.freq
        root := t.root
        ct := t.ct
        bitLen := 0
        pending := none
        done := true
        errCode := 2
        errDetail := 2
        errPos := t.errPos } ∧
      t.ct = genCodes (build (freqCount s.inBytes)) ∧
      t.errPos.toNat < s.inLen.toNat ∧
      ((s.inBytes.take t.errPos.toNat).map (fun b => (codeOf t.ct b).length)).sum ≤ s.cfg.bitCap ∧
      s.cfg.bitCap < ((s.inBytes.take (t.errPos.toNat + 1)).map (fun b => (codeOf t.ct b).length)).sum

/-- Rules R40, R77 and R78: when the encoded length fits, `ENCODE` leaves in `BIT_BUF` the codes of the input bytes in
input order, `BIT_LEN` their total length, the pad bits 0 and every byte beyond unchanged; it touches nothing else. -/
def Obligations.EncodeWritesTheCodesInInputOrder : Prop :=
  ∀ s : State, s.inLen.toNat ≤ s.cfg.inCap.toNat →
    (encodeBits (genCodes (build (freqCount s.inBytes))) s.inBytes).length ≤ s.cfg.bitCap →
    ∃ t, exec .encode s = .next t ∧
      t = { s with
        freq := t.freq
        root := t.root
        ct := t.ct
        bitLen := t.bitLen
        bitBuf := t.bitBuf
        pending := none
        done := true
        errCode := 0
        errDetail := 0
        errPos := 0 } ∧
      t.ct = genCodes (build (freqCount s.inBytes)) ∧
      t.bits = s.inBytes.flatMap (codeOf t.ct) ∧
      t.bitLen.toNat = (s.inBytes.map (fun b => (codeOf t.ct b).length)).sum ∧
      (∀ k, t.bitLen.toNat ≤ k → k < 8 * ((t.bitLen.toNat + 7) / 8) → t.bitRead k = false) ∧
      ∀ a, (t.bitLen.toNat + 7) / 8 ≤ a → t.readByte .bitBuf a = s.readByte .bitBuf a

/-- Rule R78: after an `ENCODE` without error `BIT_LEN` is the sum over the symbols of count times code length. -/
def Obligations.EncodedLengthIsTheWeightedSum : Prop :=
  ∀ s : State, s.inLen.toNat ≤ s.cfg.inCap.toNat →
    ∃ t, exec .encode s = .next t ∧
      (t.errCode = 0 → t.bitLen.toNat =
        ((List.range 256).map (fun n =>
          (countOf t.freq (Byte.ofNat n)).toNat * (codeOf t.ct (Byte.ofNat n)).length)).sum)

/-- Rules R77 and R80: what `ENCODE` leaves depends on the parameters, `IN_LEN` and the bytes `IN_BUF[0..IN_LEN)` only:
two states that agree on these end with the same tables, bits and report, whatever else they held. -/
def Obligations.EncodeDependsOnItsInputOnly : Prop :=
  ∀ s s' : State, s'.cfg = s.cfg → s'.inLen = s.inLen → s.inLen.toNat ≤ s.cfg.inCap.toNat →
    (∀ a < s.inLen.toNat, s'.readByte .inBuf a = s.readByte .inBuf a) →
    ∃ t t', exec .encode s = .next t ∧ exec .encode s' = .next t' ∧
      t'.freq = t.freq ∧ t'.root = t.root ∧ t'.ct = t.ct ∧ t'.bitLen = t.bitLen ∧ t'.bits = t.bits ∧
      t'.errCode = t.errCode ∧ t'.errDetail = t.errDetail ∧ t'.errPos = t.errPos

/-! ## Bits -/

/-- Rules R39, R40 and R77: writing the packed bytes of a bit-string that fits leaves the very state that the rule's loop
of `BitWrite`s over its bits, then over the pad bits 0, leaves. -/
def Obligations.PackedWriteIsTheBitLoop : Prop :=
  ∀ (s : State) (bs : BitString), bs.length ≤ s.cfg.bitCap →
    s.writeBytes .bitBuf 0 (packBits bs) =
      s.bitWriteAll 0 (bs ++ List.replicate (8 * ((bs.length + 7) / 8) - bs.length) false)

/-! ## DECODE -/

/-- Rule R81, the failures before the walk: `CAP_TOK`, then `CAP_BIT`, with `ROOT` unchanged, then `CORRUPT_TREE` with
`ROOT = NIL`; each sets `OUT_LEN` and `TRAIL_BITS` to 0 and changes nothing else. -/
def Obligations.DecodeFailsBeforeTheWalk : Prop :=
  ∀ s : State,
    (768 < s.tokLen.toNat →
      exec .decode s = .next { s with
        outLen := 0, trailBits := 0, pending := none, done := true
        errCode := 2, errDetail := 3, errPos := 0 }) ∧
    (s.tokLen.toNat ≤ 768 → s.cfg.bitCap < s.bitLen.toNat →
      exec .decode s = .next { s with
        outLen := 0, trailBits := 0, pending := none, done := true
        errCode := 2, errDetail := 2, errPos := 0 }) ∧
    (s.tokLen.toNat ≤ 768 → s.bitLen.toNat ≤ s.cfg.bitCap → s.tokLen ≠ 0 →
      ∀ c, deserialize s.tokBytes = .error c →
      exec .decode s = .next { s with
        root := .nil, outLen := 0, trailBits := 0, pending := none, done := true
        errCode := 3, errDetail := c.cause.bits, errPos := BitVec.ofNat 32 c.pos })

/-- Rule R82: with no tree after the token step, `DECODE` writes no byte, sets `OUT_LEN` to 0 and `TRAIL_BITS` to
`BIT_LEN`, and completes without error. -/
def Obligations.DecodeWithoutATreeDiscardsEveryBit : Prop :=
  ∀ s : State, s.decodesWith .nil →
    exec .decode s = .next { s with
      root := .nil, outLen := 0, trailBits := s.bitLen, pending := none, done := true
      errCode := 0, errDetail := 0, errPos := 0 }

/-- Rules R81 and R83: when the bits are the codes of symbols of the tree, then a tail that ends below the root but at no
leaf, `DECODE` outputs the symbols and reports the tail's length; it leaves the tree it decoded with, every other byte and
all other state. -/
def Obligations.DecodeGivesBackTheEncodedSymbols : Prop :=
  ∀ (s : State) (root : Tree) (syms : List Byte) (tail : BitString), s.decodesWith root →
    root.legal = true → root ≠ .nil → (∀ x ∈ syms, x ∈ root.leaves) →
    (∃ l r, root.follow tail = .internal l r) →
    s.bits = syms.flatMap (codeOf (genCodes root)) ++ tail → syms.length ≤ s.cfg.outCap.toNat →
    ∃ t, exec .decode s = .next t ∧
      t = { s with
        root := root
        outBuf := t.outBuf
        outLen := BitVec.ofNat 32 syms.length
        trailBits := BitVec.ofNat 32 tail.length
        pending := none
        done := true
        errCode := 0
        errDetail := 0
        errPos := 0 } ∧
      (∀ i (h : i < syms.length), t.readByte .outBuf i = syms[i]) ∧
      ∀ a, syms.length ≤ a → t.readByte .outBuf a = s.readByte .outBuf a

/-- Rule R81, `CAP_OUT`: when the bits hold more symbols than `OUT_CAP`, the first `OUT_CAP` are written and `DECODE`
fails at the bit that completes the next one, with `OUT_LEN` and `TRAIL_BITS` 0 and the tree kept. -/
def Obligations.DecodeOutputCapacityReportsTheBit : Prop :=
  ∀ (s : State) (root : Tree) (syms : List Byte) (tail : BitString), s.decodesWith root →
    root.legal = true → root ≠ .nil → (∀ x ∈ syms, x ∈ root.leaves) →
    s.bits = syms.flatMap (codeOf (genCodes root)) ++ tail → s.cfg.outCap.toNat < syms.length →
    ∃ t, exec .decode s = .next t ∧
      t = { s with
        root := root
        outBuf := t.outBuf
        outLen := 0
        trailBits := 0
        pending := none
        done := true
        errCode := 2
        errDetail := 4
        errPos := t.errPos } ∧
      t.errPos.toNat + 1 =
        ((syms.take (s.cfg.outCap.toNat + 1)).flatMap (codeOf (genCodes root))).length ∧
      ∀ i (h : i < syms.length), i < s.cfg.outCap.toNat → t.readByte .outBuf i = syms[i]

/-- Rule R84: on a wrapper tree the first 1 bit ends `DECODE` with `BAD_PATH` at its index, after the symbols of the 0
bits before it; `ROOT` keeps the wrapper, `OUT_LEN` and `TRAIL_BITS` are 0, and nothing else changes. -/
def Obligations.DecodeOfAOneBitOnAWrapperIsBadPath : Prop :=
  ∀ (s : State) (x : Byte) (j : Nat) (rest : BitString), s.decodesWith (.wrapper x) →
    s.bits = List.replicate j false ++ true :: rest → j ≤ s.cfg.outCap.toNat →
    ∃ t, exec .decode s = .next t ∧
      t = { s with
        root := .wrapper x
        outBuf := t.outBuf
        outLen := 0
        trailBits := 0
        pending := none
        done := true
        errCode := 4
        errDetail := 0
        errPos := BitVec.ofNat 32 j } ∧
      (∀ i < j, t.readByte .outBuf i = x) ∧
      ∀ a, j ≤ a → t.readByte .outBuf a = s.readByte .outBuf a

/-- Rule R84, second sentence: from a state whose tree is one the block can hold, `BAD_PATH` happens only with a wrapper,
on a 1 bit before which every bit is 0. -/
def Obligations.BadPathHappensOnlyOnAWrapper : Prop :=
  ∀ s : State, s.root.legal = true →
    ∃ t, exec .decode s = .next t ∧
      (t.errCode = 4 → t.root.isWrapper = true ∧ t.errPos.toNat < s.bitLen.toNat ∧
        s.bitRead t.errPos.toNat = true ∧ ∀ i < t.errPos.toNat, s.bitRead i = false)

/-- Rules R24, R25 and R81: after a `DECODE` without error `OUT_LEN` and `TRAIL_BITS` together never exceed `BIT_LEN`, since
each symbol takes at least one bit; after an error both are 0. -/
def Obligations.DecodedLengthIsWithinTheBits : Prop :=
  ∀ s : State, ∃ t, exec .decode s = .next t ∧
    (t.errCode = 0 → t.outLen.toNat + t.trailBits.toNat ≤ s.bitLen.toNat) ∧
    (t.errCode ≠ 0 → t.outLen = 0 ∧ t.trailBits = 0)

/-- Rules R17 and R81, frame: `DECODE` changes only `ROOT`, `OUT_LEN`, `TRAIL_BITS`, `OUT_BUF` and the completion fields,
keeps `ROOT` when no token sequence is supplied, and writes exactly the bytes its walk emits. -/
def Obligations.DecodeTouchesOnlyItsOutputs : Prop :=
  ∀ s : State, ∃ t, exec .decode s = .next t ∧
    t = { s with
      root := t.root
      outBuf := t.outBuf
      outLen := t.outLen
      trailBits := t.trailBits
      pending := none
      done := true
      errCode := t.errCode
      errDetail := t.errDetail
      errPos := t.errPos } ∧
    (s.tokLen = 0 → t.root = s.root) ∧
    ((∀ root, ¬ s.decodesWith root) → t.outBuf = s.outBuf) ∧
    (s.decodesWith .nil → t.outBuf = s.outBuf) ∧
    ∀ root, s.decodesWith root → root ≠ .nil →
      (∀ i (h : i < (s.decodeWalk root).out.length), t.readByte .outBuf i = (s.decodeWalk root).out[i]) ∧
      ∀ a, (s.decodeWalk root).out.length ≤ a → t.readByte .outBuf a = s.readByte .outBuf a

/-- Rule R40, second sentence: `DECODE` reads only the bits below `BIT_LEN`: two states with the same parameters, tree,
token sequence and bits below `BIT_LEN` end with the same tree, lengths and report, and `OUT_BUF` holds in both, on
success and on error, every symbol that the walk over the bits of the first emits. -/
def Obligations.DecodeIgnoresBitsBeyondBitLen : Prop :=
  ∀ s s' : State, s'.cfg = s.cfg → s'.root = s.root → s'.tokLen = s.tokLen → s'.bitLen = s.bitLen →
    (∀ a < s.tokLen.toNat, s'.readByte .tokBuf a = s.readByte .tokBuf a) →
    (∀ k < s.bitLen.toNat, s'.bitRead k = s.bitRead k) →
    ∃ t t', exec .decode s = .next t ∧ exec .decode s' = .next t' ∧
      t'.root = t.root ∧ t'.outLen = t.outLen ∧ t'.trailBits = t.trailBits ∧
      t'.errCode = t.errCode ∧ t'.errDetail = t.errDetail ∧ t'.errPos = t.errPos ∧
      ∀ root, s.decodesWith root → root ≠ .nil →
        ∀ i (h : i < (s.decodeWalk root).out.length),
          t.readByte .outBuf i = (s.decodeWalk root).out[i] ∧
            t'.readByte .outBuf i = (s.decodeWalk root).out[i]

/-! ## Whole-machine rules -/

/-- Rule R85: `ENCODE`, `SERIALIZE`, `DECODE` give back every input that fits, the empty one too, without error and with no
trailing bit. -/
def Obligations.EncodeSerializeDecodeRoundTrip : Prop :=
  ∀ s : State, s.inLen.toNat ≤ s.cfg.inCap.toNat → s.inLen.toNat ≤ s.cfg.outCap.toNat →
    (encodeBits (genCodes (build (freqCount s.inBytes))) s.inBytes).length ≤ s.cfg.bitCap →
    ∃ t u v, exec .encode s = .next t ∧ exec .serialize t = .next u ∧ exec .decode u = .next v ∧
      t.errCode = 0 ∧ u.errCode = 0 ∧ v.errCode = 0 ∧ v.outLen = s.inLen ∧ v.trailBits = 0 ∧
      ∀ i < s.inLen.toNat, v.readByte .outBuf i = s.readByte .inBuf i

/-- Rules R16, R24, R25, R29 and R31: which steps change which state. `ROOT` changes only at reset or in a core step
of `ENCODE`, `DECODE`, `DESERIALIZE` or `CLEAR`; `CT` only at reset or in `ENCODE`, `GEN_CODES` or `CLEAR`; `OUT_LEN`
and `TRAIL_BITS` only at reset or in `DECODE`; the parameters never. Whose turn a step is, is the model's own (log
entry 5). -/
def Obligations.OnlyTheNamedCommandsChangeTreeAndTable : Prop :=
  ∀ s t : State, step s = .next t →
    t.cfg = s.cfg ∧
    (t.root ≠ s.root → s.turn = .reset ∨
      (s.turn = .core ∧ ∃ w, s.pending = some w ∧ (w = 1 ∨ w = 3 ∨ w = 4 ∨ w = 6))) ∧
    (t.ct ≠ s.ct → s.turn = .reset ∨
      (s.turn = .core ∧ ∃ w, s.pending = some w ∧ (w = 1 ∨ w = 5 ∨ w = 6))) ∧
    (t.outLen ≠ s.outLen ∨ t.trailBits ≠ s.trailBits → s.turn = .reset ∨
      (s.turn = .core ∧ s.pending = some 3))

/-- The invariant of rules R18, R24, R25, R30, R31, R36, R57, R104 and R105 is kept by every step: of the host, of the
core and of reset. That a step is a turn of one of the three is the model's own (log entry 5). -/
def Obligations.EveryStepKeepsTheInvariant : Prop :=
  ∀ s t : State, s.Inv → step s = .next t → t.Inv

/-- The state after reset meets the invariant (rules R35, R119), for every well-formed choice of the parameters. -/
def Obligations.ResetMeetsTheInvariant : Prop :=
  ∀ c : Config, c.wf = true → (State.resetWith c).Inv

/-- Rules R51 to R53, the host's container: the container written from the block's registers and buffers reads back, and no
proper prefix of it is accepted. -/
def Obligations.ContainersReadBack : Prop :=
  ∀ s : State, s.tokLen.toNat ≤ 768 → s.bitLen.toNat ≤ s.cfg.bitCap →
    readContainer s.cfg s.container.bytes = some s.container ∧
    ∀ n < s.container.bytes.length, readContainer s.cfg (s.container.bytes.take n) = none
end

