-- ==== Sys2Proof/Laws/State.lean ====
section
/-! SUPPORT. One lemma per field per update of the state, true by unfolding the update once, so that no later
proof unfolds a record update. -/

namespace Sys2Proof.Machine

/-! `complete` (rule R59) -/

@[simp] theorem State.complete_cfg (s : State) (r : CmdResult) : (s.complete r).cfg = s.cfg := rfl
@[simp] theorem State.complete_pending (s : State) (r : CmdResult) : (s.complete r).pending = none := rfl
@[simp] theorem State.complete_done (s : State) (r : CmdResult) : (s.complete r).done = true := rfl
@[simp] theorem State.complete_viol (s : State) (r : CmdResult) : (s.complete r).viol = s.viol := rfl
@[simp] theorem State.complete_errCode (s : State) (r : CmdResult) : (s.complete r).errCode = r.code.bits := rfl
@[simp] theorem State.complete_errDetail (s : State) (r : CmdResult) : (s.complete r).errDetail = r.detail := rfl
@[simp] theorem State.complete_errPos (s : State) (r : CmdResult) : (s.complete r).errPos = Word.ofNat r.pos := rfl
@[simp] theorem State.complete_inLen (s : State) (r : CmdResult) : (s.complete r).inLen = s.inLen := rfl
@[simp] theorem State.complete_bitLen (s : State) (r : CmdResult) : (s.complete r).bitLen = s.bitLen := rfl
@[simp] theorem State.complete_tokLen (s : State) (r : CmdResult) : (s.complete r).tokLen = s.tokLen := rfl
@[simp] theorem State.complete_outLen (s : State) (r : CmdResult) : (s.complete r).outLen = s.outLen := rfl
@[simp] theorem State.complete_trailBits (s : State) (r : CmdResult) : (s.complete r).trailBits = s.trailBits := rfl
@[simp] theorem State.complete_freq (s : State) (r : CmdResult) : (s.complete r).freq = s.freq := rfl
@[simp] theorem State.complete_root (s : State) (r : CmdResult) : (s.complete r).root = s.root := rfl
@[simp] theorem State.complete_ct (s : State) (r : CmdResult) : (s.complete r).ct = s.ct := rfl
@[simp] theorem State.complete_inBuf (s : State) (r : CmdResult) : (s.complete r).inBuf = s.inBuf := rfl
@[simp] theorem State.complete_bitBuf (s : State) (r : CmdResult) : (s.complete r).bitBuf = s.bitBuf := rfl
@[simp] theorem State.complete_tokBuf (s : State) (r : CmdResult) : (s.complete r).tokBuf = s.tokBuf := rfl
@[simp] theorem State.complete_outBuf (s : State) (r : CmdResult) : (s.complete r).outBuf = s.outBuf := rfl
@[simp] theorem State.complete_epoch (s : State) (r : CmdResult) : (s.complete r).epoch = s.epoch := rfl
@[simp] theorem State.complete_draws (s : State) (r : CmdResult) : (s.complete r).draws = s.draws := rfl
@[simp] theorem State.complete_host (s : State) (r : CmdResult) : (s.complete r).host = s.host := rfl
@[simp] theorem State.complete_sched (s : State) (r : CmdResult) : (s.complete r).sched = s.sched := rfl
@[simp] theorem State.complete_reads (s : State) (r : CmdResult) : (s.complete r).reads = s.reads := rfl

/-! `accept` (rule R57) -/

@[simp] theorem State.accept_cfg (s : State) (w : Word) : (s.accept w).cfg = s.cfg := rfl
@[simp] theorem State.accept_pending (s : State) (w : Word) : (s.accept w).pending = some w := rfl
@[simp] theorem State.accept_done (s : State) (w : Word) : (s.accept w).done = false := rfl
@[simp] theorem State.accept_viol (s : State) (w : Word) : (s.accept w).viol = false := rfl
@[simp] theorem State.accept_errCode (s : State) (w : Word) : (s.accept w).errCode = 0 := rfl
@[simp] theorem State.accept_errDetail (s : State) (w : Word) : (s.accept w).errDetail = s.errDetail := rfl
@[simp] theorem State.accept_errPos (s : State) (w : Word) : (s.accept w).errPos = s.errPos := rfl
@[simp] theorem State.accept_inLen (s : State) (w : Word) : (s.accept w).inLen = s.inLen := rfl
@[simp] theorem State.accept_bitLen (s : State) (w : Word) : (s.accept w).bitLen = s.bitLen := rfl
@[simp] theorem State.accept_tokLen (s : State) (w : Word) : (s.accept w).tokLen = s.tokLen := rfl
@[simp] theorem State.accept_outLen (s : State) (w : Word) : (s.accept w).outLen = s.outLen := rfl
@[simp] theorem State.accept_trailBits (s : State) (w : Word) : (s.accept w).trailBits = s.trailBits := rfl
@[simp] theorem State.accept_freq (s : State) (w : Word) : (s.accept w).freq = s.freq := rfl
@[simp] theorem State.accept_root (s : State) (w : Word) : (s.accept w).root = s.root := rfl
@[simp] theorem State.accept_ct (s : State) (w : Word) : (s.accept w).ct = s.ct := rfl
@[simp] theorem State.accept_inBuf (s : State) (w : Word) : (s.accept w).inBuf = s.inBuf := rfl
@[simp] theorem State.accept_bitBuf (s : State) (w : Word) : (s.accept w).bitBuf = s.bitBuf := rfl
@[simp] theorem State.accept_tokBuf (s : State) (w : Word) : (s.accept w).tokBuf = s.tokBuf := rfl
@[simp] theorem State.accept_outBuf (s : State) (w : Word) : (s.accept w).outBuf = s.outBuf := rfl
@[simp] theorem State.accept_epoch (s : State) (w : Word) : (s.accept w).epoch = s.epoch := rfl
@[simp] theorem State.accept_draws (s : State) (w : Word) : (s.accept w).draws = s.draws := rfl
@[simp] theorem State.accept_host (s : State) (w : Word) : (s.accept w).host = s.host := rfl
@[simp] theorem State.accept_sched (s : State) (w : Word) : (s.accept w).sched = s.sched := rfl
@[simp] theorem State.accept_reads (s : State) (w : Word) : (s.accept w).reads = s.reads := rfl

/-! `observe` -/

@[simp] theorem State.observe_cfg (s : State) (sp : Space) (off : Nat) (v : Word) : (s.observe sp off v).cfg = s.cfg := rfl
@[simp] theorem State.observe_pending (s : State) (sp : Space) (off : Nat) (v : Word) : (s.observe sp off v).pending = s.pending := rfl
@[simp] theorem State.observe_done (s : State) (sp : Space) (off : Nat) (v : Word) : (s.observe sp off v).done = s.done := rfl
@[simp] theorem State.observe_viol (s : State) (sp : Space) (off : Nat) (v : Word) : (s.observe sp off v).viol = s.viol := rfl
@[simp] theorem State.observe_errCode (s : State) (sp : Space) (off : Nat) (v : Word) : (s.observe sp off v).errCode = s.errCode := rfl
@[simp] theorem State.observe_errDetail (s : State) (sp : Space) (off : Nat) (v : Word) : (s.observe sp off v).errDetail = s.errDetail := rfl
@[simp] theorem State.observe_errPos (s : State) (sp : Space) (off : Nat) (v : Word) : (s.observe sp off v).errPos = s.errPos := rfl
@[simp] theorem State.observe_inLen (s : State) (sp : Space) (off : Nat) (v : Word) : (s.observe sp off v).inLen = s.inLen := rfl
@[simp] theorem State.observe_bitLen (s : State) (sp : Space) (off : Nat) (v : Word) : (s.observe sp off v).bitLen = s.bitLen := rfl
@[simp] theorem State.observe_tokLen (s : State) (sp : Space) (off : Nat) (v : Word) : (s.observe sp off v).tokLen = s.tokLen := rfl
@[simp] theorem State.observe_outLen (s : State) (sp : Space) (off : Nat) (v : Word) : (s.observe sp off v).outLen = s.outLen := rfl
@[simp] theorem State.observe_trailBits (s : State) (sp : Space) (off : Nat) (v : Word) : (s.observe sp off v).trailBits = s.trailBits := rfl
@[simp] theorem State.observe_freq (s : State) (sp : Space) (off : Nat) (v : Word) : (s.observe sp off v).freq = s.freq := rfl
@[simp] theorem State.observe_root (s : State) (sp : Space) (off : Nat) (v : Word) : (s.observe sp off v).root = s.root := rfl
@[simp] theorem State.observe_ct (s : State) (sp : Space) (off : Nat) (v : Word) : (s.observe sp off v).ct = s.ct := rfl
@[simp] theorem State.observe_inBuf (s : State) (sp : Space) (off : Nat) (v : Word) : (s.observe sp off v).inBuf = s.inBuf := rfl
@[simp] theorem State.observe_bitBuf (s : State) (sp : Space) (off : Nat) (v : Word) : (s.observe sp off v).bitBuf = s.bitBuf := rfl
@[simp] theorem State.observe_tokBuf (s : State) (sp : Space) (off : Nat) (v : Word) : (s.observe sp off v).tokBuf = s.tokBuf := rfl
@[simp] theorem State.observe_outBuf (s : State) (sp : Space) (off : Nat) (v : Word) : (s.observe sp off v).outBuf = s.outBuf := rfl
@[simp] theorem State.observe_epoch (s : State) (sp : Space) (off : Nat) (v : Word) : (s.observe sp off v).epoch = s.epoch := rfl
@[simp] theorem State.observe_draws (s : State) (sp : Space) (off : Nat) (v : Word) : (s.observe sp off v).draws = s.draws := rfl
@[simp] theorem State.observe_host (s : State) (sp : Space) (off : Nat) (v : Word) : (s.observe sp off v).host = s.host := rfl
@[simp] theorem State.observe_sched (s : State) (sp : Space) (off : Nat) (v : Word) : (s.observe sp off v).sched = s.sched := rfl
@[simp] theorem State.observe_reads (s : State) (sp : Space) (off : Nat) (v : Word) : (s.observe sp off v).reads = ⟨sp, off, v⟩ :: s.reads := rfl

/-! `spendTurn`, `withHost` (log entry 5) -/

@[simp] theorem State.spendTurn_cfg (s : State) : s.spendTurn.cfg = s.cfg := rfl
@[simp] theorem State.spendTurn_pending (s : State) : s.spendTurn.pending = s.pending := rfl
@[simp] theorem State.spendTurn_done (s : State) : s.spendTurn.done = s.done := rfl
@[simp] theorem State.spendTurn_viol (s : State) : s.spendTurn.viol = s.viol := rfl
@[simp] theorem State.spendTurn_errCode (s : State) : s.spendTurn.errCode = s.errCode := rfl
@[simp] theorem State.spendTurn_errDetail (s : State) : s.spendTurn.errDetail = s.errDetail := rfl
@[simp] theorem State.spendTurn_errPos (s : State) : s.spendTurn.errPos = s.errPos := rfl
@[simp] theorem State.spendTurn_inLen (s : State) : s.spendTurn.inLen = s.inLen := rfl
@[simp] theorem State.spendTurn_bitLen (s : State) : s.spendTurn.bitLen = s.bitLen := rfl
@[simp] theorem State.spendTurn_tokLen (s : State) : s.spendTurn.tokLen = s.tokLen := rfl
@[simp] theorem State.spendTurn_outLen (s : State) : s.spendTurn.outLen = s.outLen := rfl
@[simp] theorem State.spendTurn_trailBits (s : State) : s.spendTurn.trailBits = s.trailBits := rfl
@[simp] theorem State.spendTurn_freq (s : State) : s.spendTurn.freq = s.freq := rfl
@[simp] theorem State.spendTurn_root (s : State) : s.spendTurn.root = s.root := rfl
@[simp] theorem State.spendTurn_ct (s : State) : s.spendTurn.ct = s.ct := rfl
@[simp] theorem State.spendTurn_inBuf (s : State) : s.spendTurn.inBuf = s.inBuf := rfl
@[simp] theorem State.spendTurn_bitBuf (s : State) : s.spendTurn.bitBuf = s.bitBuf := rfl
@[simp] theorem State.spendTurn_tokBuf (s : State) : s.spendTurn.tokBuf = s.tokBuf := rfl
@[simp] theorem State.spendTurn_outBuf (s : State) : s.spendTurn.outBuf = s.outBuf := rfl
@[simp] theorem State.spendTurn_epoch (s : State) : s.spendTurn.epoch = s.epoch := rfl
@[simp] theorem State.spendTurn_draws (s : State) : s.spendTurn.draws = s.draws := rfl
@[simp] theorem State.spendTurn_host (s : State) : s.spendTurn.host = s.host := rfl
@[simp] theorem State.spendTurn_sched (s : State) : s.spendTurn.sched = s.sched.tail := rfl
@[simp] theorem State.spendTurn_reads (s : State) : s.spendTurn.reads = s.reads := rfl

@[simp] theorem State.withHost_cfg (s : State) (rest : List HostMove) : (s.withHost rest).cfg = s.cfg := rfl
@[simp] theorem State.withHost_pending (s : State) (rest : List HostMove) : (s.withHost rest).pending = s.pending := rfl
@[simp] theorem State.withHost_done (s : State) (rest : List HostMove) : (s.withHost rest).done = s.done := rfl
@[simp] theorem State.withHost_viol (s : State) (rest : List HostMove) : (s.withHost rest).viol = s.viol := rfl
@[simp] theorem State.withHost_errCode (s : State) (rest : List HostMove) : (s.withHost rest).errCode = s.errCode := rfl
@[simp] theorem State.withHost_errDetail (s : State) (rest : List HostMove) : (s.withHost rest).errDetail = s.errDetail := rfl
@[simp] theorem State.withHost_errPos (s : State) (rest : List HostMove) : (s.withHost rest).errPos = s.errPos := rfl
@[simp] theorem State.withHost_inLen (s : State) (rest : List HostMove) : (s.withHost rest).inLen = s.inLen := rfl
@[simp] theorem State.withHost_bitLen (s : State) (rest : List HostMove) : (s.withHost rest).bitLen = s.bitLen := rfl
@[simp] theorem State.withHost_tokLen (s : State) (rest : List HostMove) : (s.withHost rest).tokLen = s.tokLen := rfl
@[simp] theorem State.withHost_outLen (s : State) (rest : List HostMove) : (s.withHost rest).outLen = s.outLen := rfl
@[simp] theorem State.withHost_trailBits (s : State) (rest : List HostMove) : (s.withHost rest).trailBits = s.trailBits := rfl
@[simp] theorem State.withHost_freq (s : State) (rest : List HostMove) : (s.withHost rest).freq = s.freq := rfl
@[simp] theorem State.withHost_root (s : State) (rest : List HostMove) : (s.withHost rest).root = s.root := rfl
@[simp] theorem State.withHost_ct (s : State) (rest : List HostMove) : (s.withHost rest).ct = s.ct := rfl
@[simp] theorem State.withHost_inBuf (s : State) (rest : List HostMove) : (s.withHost rest).inBuf = s.inBuf := rfl
@[simp] theorem State.withHost_bitBuf (s : State) (rest : List HostMove) : (s.withHost rest).bitBuf = s.bitBuf := rfl
@[simp] theorem State.withHost_tokBuf (s : State) (rest : List HostMove) : (s.withHost rest).tokBuf = s.tokBuf := rfl
@[simp] theorem State.withHost_outBuf (s : State) (rest : List HostMove) : (s.withHost rest).outBuf = s.outBuf := rfl
@[simp] theorem State.withHost_epoch (s : State) (rest : List HostMove) : (s.withHost rest).epoch = s.epoch := rfl
@[simp] theorem State.withHost_draws (s : State) (rest : List HostMove) : (s.withHost rest).draws = s.draws := rfl
@[simp] theorem State.withHost_host (s : State) (rest : List HostMove) : (s.withHost rest).host = rest := rfl
@[simp] theorem State.withHost_sched (s : State) (rest : List HostMove) : (s.withHost rest).sched = s.sched := rfl
@[simp] theorem State.withHost_reads (s : State) (rest : List HostMove) : (s.withHost rest).reads = s.reads := rfl

/-! `decodeFail` (rule R81) -/

@[simp] theorem State.decodeFail_cfg (s : State) (r : CmdResult) : (s.decodeFail r).cfg = s.cfg := rfl
@[simp] theorem State.decodeFail_pending (s : State) (r : CmdResult) : (s.decodeFail r).pending = none := rfl
@[simp] theorem State.decodeFail_done (s : State) (r : CmdResult) : (s.decodeFail r).done = true := rfl
@[simp] theorem State.decodeFail_viol (s : State) (r : CmdResult) : (s.decodeFail r).viol = s.viol := rfl
@[simp] theorem State.decodeFail_errCode (s : State) (r : CmdResult) : (s.decodeFail r).errCode = r.code.bits := rfl
@[simp] theorem State.decodeFail_errDetail (s : State) (r : CmdResult) : (s.decodeFail r).errDetail = r.detail := rfl
@[simp] theorem State.decodeFail_errPos (s : State) (r : CmdResult) : (s.decodeFail r).errPos = Word.ofNat r.pos := rfl
@[simp] theorem State.decodeFail_inLen (s : State) (r : CmdResult) : (s.decodeFail r).inLen = s.inLen := rfl
@[simp] theorem State.decodeFail_bitLen (s : State) (r : CmdResult) : (s.decodeFail r).bitLen = s.bitLen := rfl
@[simp] theorem State.decodeFail_tokLen (s : State) (r : CmdResult) : (s.decodeFail r).tokLen = s.tokLen := rfl
@[simp] theorem State.decodeFail_outLen (s : State) (r : CmdResult) : (s.decodeFail r).outLen = 0 := rfl
@[simp] theorem State.decodeFail_trailBits (s : State) (r : CmdResult) : (s.decodeFail r).trailBits = 0 := rfl
@[simp] theorem State.decodeFail_freq (s : State) (r : CmdResult) : (s.decodeFail r).freq = s.freq := rfl
@[simp] theorem State.decodeFail_root (s : State) (r : CmdResult) : (s.decodeFail r).root = s.root := rfl
@[simp] theorem State.decodeFail_ct (s : State) (r : CmdResult) : (s.decodeFail r).ct = s.ct := rfl
@[simp] theorem State.decodeFail_inBuf (s : State) (r : CmdResult) : (s.decodeFail r).inBuf = s.inBuf := rfl
@[simp] theorem State.decodeFail_bitBuf (s : State) (r : CmdResult) : (s.decodeFail r).bitBuf = s.bitBuf := rfl
@[simp] theorem State.decodeFail_tokBuf (s : State) (r : CmdResult) : (s.decodeFail r).tokBuf = s.tokBuf := rfl
@[simp] theorem State.decodeFail_outBuf (s : State) (r : CmdResult) : (s.decodeFail r).outBuf = s.outBuf := rfl
@[simp] theorem State.decodeFail_epoch (s : State) (r : CmdResult) : (s.decodeFail r).epoch = s.epoch := rfl
@[simp] theorem State.decodeFail_draws (s : State) (r : CmdResult) : (s.decodeFail r).draws = s.draws := rfl
@[simp] theorem State.decodeFail_host (s : State) (r : CmdResult) : (s.decodeFail r).host = s.host := rfl
@[simp] theorem State.decodeFail_sched (s : State) (r : CmdResult) : (s.decodeFail r).sched = s.sched := rfl
@[simp] theorem State.decodeFail_reads (s : State) (r : CmdResult) : (s.decodeFail r).reads = s.reads := rfl

/-! `freshTables` (rule R77) -/

@[simp] theorem State.freshTables_cfg (s : State) : s.freshTables.cfg = s.cfg := rfl
@[simp] theorem State.freshTables_pending (s : State) : s.freshTables.pending = s.pending := rfl
@[simp] theorem State.freshTables_done (s : State) : s.freshTables.done = s.done := rfl
@[simp] theorem State.freshTables_viol (s : State) : s.freshTables.viol = s.viol := rfl
@[simp] theorem State.freshTables_errCode (s : State) : s.freshTables.errCode = s.errCode := rfl
@[simp] theorem State.freshTables_errDetail (s : State) : s.freshTables.errDetail = s.errDetail := rfl
@[simp] theorem State.freshTables_errPos (s : State) : s.freshTables.errPos = s.errPos := rfl
@[simp] theorem State.freshTables_inLen (s : State) : s.freshTables.inLen = s.inLen := rfl
@[simp] theorem State.freshTables_bitLen (s : State) : s.freshTables.bitLen = s.bitLen := rfl
@[simp] theorem State.freshTables_tokLen (s : State) : s.freshTables.tokLen = s.tokLen := rfl
@[simp] theorem State.freshTables_outLen (s : State) : s.freshTables.outLen = s.outLen := rfl
@[simp] theorem State.freshTables_trailBits (s : State) : s.freshTables.trailBits = s.trailBits := rfl
@[simp] theorem State.freshTables_freq (s : State) : s.freshTables.freq = freqCount s.inBytes := rfl
@[simp] theorem State.freshTables_root (s : State) : s.freshTables.root = build (freqCount s.inBytes) := rfl
@[simp] theorem State.freshTables_ct (s : State) : s.freshTables.ct = genCodes (build (freqCount s.inBytes)) := rfl
@[simp] theorem State.freshTables_inBuf (s : State) : s.freshTables.inBuf = s.inBuf := rfl
@[simp] theorem State.freshTables_bitBuf (s : State) : s.freshTables.bitBuf = s.bitBuf := rfl
@[simp] theorem State.freshTables_tokBuf (s : State) : s.freshTables.tokBuf = s.tokBuf := rfl
@[simp] theorem State.freshTables_outBuf (s : State) : s.freshTables.outBuf = s.outBuf := rfl
@[simp] theorem State.freshTables_epoch (s : State) : s.freshTables.epoch = s.epoch := rfl
@[simp] theorem State.freshTables_draws (s : State) : s.freshTables.draws = s.draws := rfl
@[simp] theorem State.freshTables_host (s : State) : s.freshTables.host = s.host := rfl
@[simp] theorem State.freshTables_sched (s : State) : s.freshTables.sched = s.sched := rfl
@[simp] theorem State.freshTables_reads (s : State) : s.freshTables.reads = s.reads := rfl

/-! `resetBlock` (rule R118) -/

@[simp] theorem State.resetBlock_cfg (s : State) : s.resetBlock.cfg = s.cfg := rfl
@[simp] theorem State.resetBlock_pending (s : State) : s.resetBlock.pending = none := rfl
@[simp] theorem State.resetBlock_done (s : State) : s.resetBlock.done = false := rfl
@[simp] theorem State.resetBlock_viol (s : State) : s.resetBlock.viol = false := rfl
@[simp] theorem State.resetBlock_errCode (s : State) : s.resetBlock.errCode = 0 := rfl
@[simp] theorem State.resetBlock_errDetail (s : State) : s.resetBlock.errDetail = 0 := rfl
@[simp] theorem State.resetBlock_errPos (s : State) : s.resetBlock.errPos = 0 := rfl
@[simp] theorem State.resetBlock_inLen (s : State) : s.resetBlock.inLen = 0 := rfl
@[simp] theorem State.resetBlock_bitLen (s : State) : s.resetBlock.bitLen = 0 := rfl
@[simp] theorem State.resetBlock_tokLen (s : State) : s.resetBlock.tokLen = 0 := rfl
@[simp] theorem State.resetBlock_outLen (s : State) : s.resetBlock.outLen = 0 := rfl
@[simp] theorem State.resetBlock_trailBits (s : State) : s.resetBlock.trailBits = 0 := rfl
@[simp] theorem State.resetBlock_freq (s : State) : s.resetBlock.freq = Vector.replicate 256 0 := rfl
@[simp] theorem State.resetBlock_root (s : State) : s.resetBlock.root = .nil := rfl
@[simp] theorem State.resetBlock_ct (s : State) : s.resetBlock.ct = Vector.replicate 256 none := rfl
@[simp] theorem State.resetBlock_inBuf (s : State) : s.resetBlock.inBuf = [] := rfl
@[simp] theorem State.resetBlock_bitBuf (s : State) : s.resetBlock.bitBuf = [] := rfl
@[simp] theorem State.resetBlock_tokBuf (s : State) : s.resetBlock.tokBuf = [] := rfl
@[simp] theorem State.resetBlock_outBuf (s : State) : s.resetBlock.outBuf = [] := rfl
@[simp] theorem State.resetBlock_epoch (s : State) : s.resetBlock.epoch = s.epoch + 1 := rfl
@[simp] theorem State.resetBlock_draws (s : State) : s.resetBlock.draws = s.draws := rfl
@[simp] theorem State.resetBlock_host (s : State) : s.resetBlock.host = s.host := rfl
@[simp] theorem State.resetBlock_sched (s : State) : s.resetBlock.sched = s.sched := rfl
@[simp] theorem State.resetBlock_reads (s : State) : s.resetBlock.reads = s.reads := rfl

/-! `setMem`, `writeByte`, `writeBytes` (rules R12, R37) -/

@[simp] theorem State.setMem_cfg (s : State) (sp : Space) (m : Memory) : (s.setMem sp m).cfg = s.cfg := by cases sp <;> rfl
@[simp] theorem State.setMem_pending (s : State) (sp : Space) (m : Memory) : (s.setMem sp m).pending = s.pending := by cases sp <;> rfl
@[simp] theorem State.setMem_done (s : State) (sp : Space) (m : Memory) : (s.setMem sp m).done = s.done := by cases sp <;> rfl
@[simp] theorem State.setMem_viol (s : State) (sp : Space) (m : Memory) : (s.setMem sp m).viol = s.viol := by cases sp <;> rfl
@[simp] theorem State.setMem_errCode (s : State) (sp : Space) (m : Memory) : (s.setMem sp m).errCode = s.errCode := by cases sp <;> rfl
@[simp] theorem State.setMem_errDetail (s : State) (sp : Space) (m : Memory) : (s.setMem sp m).errDetail = s.errDetail := by cases sp <;> rfl
@[simp] theorem State.setMem_errPos (s : State) (sp : Space) (m : Memory) : (s.setMem sp m).errPos = s.errPos := by cases sp <;> rfl
@[simp] theorem State.setMem_inLen (s : State) (sp : Space) (m : Memory) : (s.setMem sp m).inLen = s.inLen := by cases sp <;> rfl
@[simp] theorem State.setMem_bitLen (s : State) (sp : Space) (m : Memory) : (s.setMem sp m).bitLen = s.bitLen := by cases sp <;> rfl
@[simp] theorem State.setMem_tokLen (s : State) (sp : Space) (m : Memory) : (s.setMem sp m).tokLen = s.tokLen := by cases sp <;> rfl
@[simp] theorem State.setMem_outLen (s : State) (sp : Space) (m : Memory) : (s.setMem sp m).outLen = s.outLen := by cases sp <;> rfl
@[simp] theorem State.setMem_trailBits (s : State) (sp : Space) (m : Memory) : (s.setMem sp m).trailBits = s.trailBits := by cases sp <;> rfl
@[simp] theorem State.setMem_freq (s : State) (sp : Space) (m : Memory) : (s.setMem sp m).freq = s.freq := by cases sp <;> rfl
@[simp] theorem State.setMem_root (s : State) (sp : Space) (m : Memory) : (s.setMem sp m).root = s.root := by cases sp <;> rfl
@[simp] theorem State.setMem_ct (s : State) (sp : Space) (m : Memory) : (s.setMem sp m).ct = s.ct := by cases sp <;> rfl
@[simp] theorem State.setMem_epoch (s : State) (sp : Space) (m : Memory) : (s.setMem sp m).epoch = s.epoch := by cases sp <;> rfl
@[simp] theorem State.setMem_draws (s : State) (sp : Space) (m : Memory) : (s.setMem sp m).draws = s.draws := by cases sp <;> rfl
@[simp] theorem State.setMem_host (s : State) (sp : Space) (m : Memory) : (s.setMem sp m).host = s.host := by cases sp <;> rfl
@[simp] theorem State.setMem_sched (s : State) (sp : Space) (m : Memory) : (s.setMem sp m).sched = s.sched := by cases sp <;> rfl
@[simp] theorem State.setMem_reads (s : State) (sp : Space) (m : Memory) : (s.setMem sp m).reads = s.reads := by cases sp <;> rfl

@[simp] theorem State.writeByte_cfg (s : State) (sp : Space) (a : Nat) (v : Byte) : (s.writeByte sp a v).cfg = s.cfg := by
  unfold State.writeByte; split <;> simp
@[simp] theorem State.writeByte_pending (s : State) (sp : Space) (a : Nat) (v : Byte) : (s.writeByte sp a v).pending = s.pending := by
  unfold State.writeByte; split <;> simp
@[simp] theorem State.writeByte_done (s : State) (sp : Space) (a : Nat) (v : Byte) : (s.writeByte sp a v).done = s.done := by
  unfold State.writeByte; split <;> simp
@[simp] theorem State.writeByte_viol (s : State) (sp : Space) (a : Nat) (v : Byte) : (s.writeByte sp a v).viol = s.viol := by
  unfold State.writeByte; split <;> simp
@[simp] theorem State.writeByte_errCode (s : State) (sp : Space) (a : Nat) (v : Byte) : (s.writeByte sp a v).errCode = s.errCode := by
  unfold State.writeByte; split <;> simp
@[simp] theorem State.writeByte_errDetail (s : State) (sp : Space) (a : Nat) (v : Byte) : (s.writeByte sp a v).errDetail = s.errDetail := by
  unfold State.writeByte; split <;> simp
@[simp] theorem State.writeByte_errPos (s : State) (sp : Space) (a : Nat) (v : Byte) : (s.writeByte sp a v).errPos = s.errPos := by
  unfold State.writeByte; split <;> simp
@[simp] theorem State.writeByte_inLen (s : State) (sp : Space) (a : Nat) (v : Byte) : (s.writeByte sp a v).inLen = s.inLen := by
  unfold State.writeByte; split <;> simp
@[simp] theorem State.writeByte_bitLen (s : State) (sp : Space) (a : Nat) (v : Byte) : (s.writeByte sp a v).bitLen = s.bitLen := by
  unfold State.writeByte; split <;> simp
@[simp] theorem State.writeByte_tokLen (s : State) (sp : Space) (a : Nat) (v : Byte) : (s.writeByte sp a v).tokLen = s.tokLen := by
  unfold State.writeByte; split <;> simp
@[simp] theorem State.writeByte_outLen (s : State) (sp : Space) (a : Nat) (v : Byte) : (s.writeByte sp a v).outLen = s.outLen := by
  unfold State.writeByte; split <;> simp
@[simp] theorem State.writeByte_trailBits (s : State) (sp : Space) (a : Nat) (v : Byte) : (s.writeByte sp a v).trailBits = s.trailBits := by
  unfold State.writeByte; split <;> simp
@[simp] theorem State.writeByte_freq (s : State) (sp : Space) (a : Nat) (v : Byte) : (s.writeByte sp a v).freq = s.freq := by
  unfold State.writeByte; split <;> simp
@[simp] theorem State.writeByte_root (s : State) (sp : Space) (a : Nat) (v : Byte) : (s.writeByte sp a v).root = s.root := by
  unfold State.writeByte; split <;> simp
@[simp] theorem State.writeByte_ct (s : State) (sp : Space) (a : Nat) (v : Byte) : (s.writeByte sp a v).ct = s.ct := by
  unfold State.writeByte; split <;> simp
@[simp] theorem State.writeByte_epoch (s : State) (sp : Space) (a : Nat) (v : Byte) : (s.writeByte sp a v).epoch = s.epoch := by
  unfold State.writeByte; split <;> simp
@[simp] theorem State.writeByte_draws (s : State) (sp : Space) (a : Nat) (v : Byte) : (s.writeByte sp a v).draws = s.draws := by
  unfold State.writeByte; split <;> simp
@[simp] theorem State.writeByte_host (s : State) (sp : Space) (a : Nat) (v : Byte) : (s.writeByte sp a v).host = s.host := by
  unfold State.writeByte; split <;> simp
@[simp] theorem State.writeByte_sched (s : State) (sp : Space) (a : Nat) (v : Byte) : (s.writeByte sp a v).sched = s.sched := by
  unfold State.writeByte; split <;> simp
@[simp] theorem State.writeByte_reads (s : State) (sp : Space) (a : Nat) (v : Byte) : (s.writeByte sp a v).reads = s.reads := by
  unfold State.writeByte; split <;> simp

@[simp] theorem State.writeBytes_cfg (s : State) (sp : Space) (a : Nat) (vs : List Byte) : (s.writeBytes sp a vs).cfg = s.cfg := by
  induction vs generalizing s a with
  | nil => rfl
  | cons v vs ih => simp [State.writeBytes, ih]
@[simp] theorem State.writeBytes_pending (s : State) (sp : Space) (a : Nat) (vs : List Byte) : (s.writeBytes sp a vs).pending = s.pending := by
  induction vs generalizing s a with
  | nil => rfl
  | cons v vs ih => simp [State.writeBytes, ih]
@[simp] theorem State.writeBytes_done (s : State) (sp : Space) (a : Nat) (vs : List Byte) : (s.writeBytes sp a vs).done = s.done := by
  induction vs generalizing s a with
  | nil => rfl
  | cons v vs ih => simp [State.writeBytes, ih]
@[simp] theorem State.writeBytes_viol (s : State) (sp : Space) (a : Nat) (vs : List Byte) : (s.writeBytes sp a vs).viol = s.viol := by
  induction vs generalizing s a with
  | nil => rfl
  | cons v vs ih => simp [State.writeBytes, ih]
@[simp] theorem State.writeBytes_errCode (s : State) (sp : Space) (a : Nat) (vs : List Byte) : (s.writeBytes sp a vs).errCode = s.errCode := by
  induction vs generalizing s a with
  | nil => rfl
  | cons v vs ih => simp [State.writeBytes, ih]
@[simp] theorem State.writeBytes_errDetail (s : State) (sp : Space) (a : Nat) (vs : List Byte) : (s.writeBytes sp a vs).errDetail = s.errDetail := by
  induction vs generalizing s a with
  | nil => rfl
  | cons v vs ih => simp [State.writeBytes, ih]
@[simp] theorem State.writeBytes_errPos (s : State) (sp : Space) (a : Nat) (vs : List Byte) : (s.writeBytes sp a vs).errPos = s.errPos := by
  induction vs generalizing s a with
  | nil => rfl
  | cons v vs ih => simp [State.writeBytes, ih]
@[simp] theorem State.writeBytes_inLen (s : State) (sp : Space) (a : Nat) (vs : List Byte) : (s.writeBytes sp a vs).inLen = s.inLen := by
  induction vs generalizing s a with
  | nil => rfl
  | cons v vs ih => simp [State.writeBytes, ih]
@[simp] theorem State.writeBytes_bitLen (s : State) (sp : Space) (a : Nat) (vs : List Byte) : (s.writeBytes sp a vs).bitLen = s.bitLen := by
  induction vs generalizing s a with
  | nil => rfl
  | cons v vs ih => simp [State.writeBytes, ih]
@[simp] theorem State.writeBytes_tokLen (s : State) (sp : Space) (a : Nat) (vs : List Byte) : (s.writeBytes sp a vs).tokLen = s.tokLen := by
  induction vs generalizing s a with
  | nil => rfl
  | cons v vs ih => simp [State.writeBytes, ih]
@[simp] theorem State.writeBytes_outLen (s : State) (sp : Space) (a : Nat) (vs : List Byte) : (s.writeBytes sp a vs).outLen = s.outLen := by
  induction vs generalizing s a with
  | nil => rfl
  | cons v vs ih => simp [State.writeBytes, ih]
@[simp] theorem State.writeBytes_trailBits (s : State) (sp : Space) (a : Nat) (vs : List Byte) : (s.writeBytes sp a vs).trailBits = s.trailBits := by
  induction vs generalizing s a with
  | nil => rfl
  | cons v vs ih => simp [State.writeBytes, ih]
@[simp] theorem State.writeBytes_freq (s : State) (sp : Space) (a : Nat) (vs : List Byte) : (s.writeBytes sp a vs).freq = s.freq := by
  induction vs generalizing s a with
  | nil => rfl
  | cons v vs ih => simp [State.writeBytes, ih]
@[simp] theorem State.writeBytes_root (s : State) (sp : Space) (a : Nat) (vs : List Byte) : (s.writeBytes sp a vs).root = s.root := by
  induction vs generalizing s a with
  | nil => rfl
  | cons v vs ih => simp [State.writeBytes, ih]
@[simp] theorem State.writeBytes_ct (s : State) (sp : Space) (a : Nat) (vs : List Byte) : (s.writeBytes sp a vs).ct = s.ct := by
  induction vs generalizing s a with
  | nil => rfl
  | cons v vs ih => simp [State.writeBytes, ih]
@[simp] theorem State.writeBytes_epoch (s : State) (sp : Space) (a : Nat) (vs : List Byte) : (s.writeBytes sp a vs).epoch = s.epoch := by
  induction vs generalizing s a with
  | nil => rfl
  | cons v vs ih => simp [State.writeBytes, ih]
@[simp] theorem State.writeBytes_draws (s : State) (sp : Space) (a : Nat) (vs : List Byte) : (s.writeBytes sp a vs).draws = s.draws := by
  induction vs generalizing s a with
  | nil => rfl
  | cons v vs ih => simp [State.writeBytes, ih]
@[simp] theorem State.writeBytes_host (s : State) (sp : Space) (a : Nat) (vs : List Byte) : (s.writeBytes sp a vs).host = s.host := by
  induction vs generalizing s a with
  | nil => rfl
  | cons v vs ih => simp [State.writeBytes, ih]
@[simp] theorem State.writeBytes_sched (s : State) (sp : Space) (a : Nat) (vs : List Byte) : (s.writeBytes sp a vs).sched = s.sched := by
  induction vs generalizing s a with
  | nil => rfl
  | cons v vs ih => simp [State.writeBytes, ih]
@[simp] theorem State.writeBytes_reads (s : State) (sp : Space) (a : Nat) (vs : List Byte) : (s.writeBytes sp a vs).reads = s.reads := by
  induction vs generalizing s a with
  | nil => rfl
  | cons v vs ih => simp [State.writeBytes, ih]

end Sys2Proof.Machine
end

