-- ==== Sys2Proof/Laws/Memory.lean ====
section
/-! SUPPORT. What the buffer operations do: reading after writing, the canonical form, and what a sequence of
byte writes leaves (rules R12, R36, R37). -/

namespace Sys2Proof.Machine

/-! The list of written bytes -/

@[simp] theorem Memory.get?_nil (a : Nat) : Memory.get? [] a = none := rfl

theorem Memory.get?_put (m : Memory) (a b : Nat) (v : Byte) :
    (Memory.put a v m).get? b = if b = a then some v else m.get? b := by
  induction m with
  | nil => simp [Memory.put, Memory.get?]
  | cons c m ih =>
    obtain ⟨k, w⟩ := c
    unfold Memory.put
    split
    · simp [Memory.get?]
    · split
      · subst_vars
        simp only [Memory.get?]
        split <;> rfl
      · rename_i h1 h2
        simp only [Memory.get?, ih]
        by_cases hb : b = k
        · have : b ≠ a := by omega
          simp [hb, show ¬ k = a by omega]
        · simp [hb]

theorem Memory.mem_put {m : Memory} {a : Nat} {v : Byte} {c : Host.Cell}
    (h : c ∈ Memory.put a v m) : c = (a, v) ∨ c ∈ m := by
  induction m with
  | nil => simpa [Memory.put] using h
  | cons d m ih =>
    obtain ⟨k, w⟩ := d
    unfold Memory.put at h
    split at h
    · simpa using h
    · split at h
      · simp only [List.mem_cons] at h ⊢
        tauto
      · simp only [List.mem_cons] at h ⊢
        rcases h with h | h
        · tauto
        · rcases ih h with h | h <;> tauto

/-- Writing a byte keeps the canonical form. -/
theorem Memory.put_wf {m : Memory} (h : m.wf) (a : Nat) (v : Byte) : (Memory.put a v m).wf := by
  induction m with
  | nil => simp [Memory.put, Memory.wf]
  | cons d m ih =>
    obtain ⟨k, w⟩ := d
    rw [Memory.wf, List.pairwise_cons] at h
    unfold Memory.put
    split
    · rename_i hk
      simp only [Memory.wf, List.pairwise_cons, List.mem_cons]
      refine ⟨?_, h⟩
      rintro c (rfl | hc)
      · exact hk
      · exact lt_trans hk (h.1 c hc)
    · split
      · subst_vars
        simpa [Memory.wf, List.pairwise_cons] using h
      · rename_i h1 h2
        simp only [Memory.wf, List.pairwise_cons]
        refine ⟨?_, ih h.2⟩
        intro c hc
        rcases Memory.mem_put hc with rfl | hc
        · show k < a
          omega
        · exact h.1 c hc

/-- The last of two writes to one offset is the one that counts. -/
theorem Memory.put_put (m : Memory) (a : Nat) (v w : Byte) :
    Memory.put a w (Memory.put a v m) = Memory.put a w m := by
  induction m with
  | nil => simp [Memory.put]
  | cons d m ih =>
    obtain ⟨k, x⟩ := d
    by_cases h1 : a < k
    · simp [Memory.put, h1]
    · by_cases h2 : a = k
      · simp [Memory.put, h2]
      · simp [Memory.put, h1, h2, ih]

/-! Reading a byte -/

@[simp] theorem State.mem_setMem_ne (s : State) {sp sp' : Space} (m : Memory) (h : sp' ≠ sp) :
    (s.setMem sp m).mem sp' = s.mem sp' := by
  cases sp <;> cases sp' <;> first | rfl | exact absurd rfl h

theorem State.mem_setMem_eq (s : State) {sp : Space} (h : sp.isBuffer = true) (m : Memory) :
    (s.setMem sp m).mem sp = m := by
  cases sp <;> first | rfl | cases h

theorem State.readByte_buffer (s : State) {sp : Space} (h : sp.isBuffer = true) (a : Nat) :
    s.readByte sp a = if a < s.cfg.size sp then s.bufferByte sp a else 0 := by
  cases sp <;> first | rfl | cases h

/-- A byte depends on the parameters, the table, the reset count and the written bytes of its space only. -/
theorem State.readByte_congr {s t : State} (sp : Space) (hc : t.cfg = s.cfg) (ht : t.ct = s.ct)
    (he : t.epoch = s.epoch) (hm : t.mem sp = s.mem sp) : t.readByte sp = s.readByte sp := by
  funext a
  unfold State.readByte
  rw [hc, ht]
  cases sp <;> simp [State.bufferByte, hm, he]

/-- A buffer's byte does not depend on the table. -/
theorem State.readByte_congr_buffer {s t : State} {sp : Space} (h : sp.isBuffer = true)
    (hc : t.cfg = s.cfg) (he : t.epoch = s.epoch) (hm : t.mem sp = s.mem sp) :
    t.readByte sp = s.readByte sp := by
  funext a
  rw [State.readByte_buffer _ h, State.readByte_buffer _ h, hc]
  simp [State.bufferByte, hm, he]

/-- Read after write, every space: the byte written inside a buffer reads back, every other byte is as
before. -/
theorem State.readByte_writeByte (s : State) (sp sp' : Space) (a b : Nat) (v : Byte) :
    (s.writeByte sp a v).readByte sp' b =
      if sp' = sp ∧ sp.isBuffer = true ∧ b = a ∧ a < s.cfg.size sp then v else s.readByte sp' b := by
  unfold State.writeByte
  split
  · rename_i ha
    by_cases hs : sp' = sp
    · subst hs
      by_cases hbuf : sp'.isBuffer = true
      · rw [State.readByte_buffer _ hbuf, State.readByte_buffer _ hbuf, State.setMem_cfg]
        simp only [State.bufferByte, State.mem_setMem_eq s hbuf, Memory.get?_put, State.setMem_epoch]
        by_cases hb : b = a
        · subst hb; simp [ha, hbuf]
        · simp [hb]
      · simp only [hbuf, Bool.false_eq_true, false_and, and_false, if_false]
        cases sp' <;> first | rfl | exact absurd rfl hbuf
    · simp only [hs, false_and, if_false]
      rw [State.readByte_congr sp' (by simp) (by simp) (by simp) (State.mem_setMem_ne s _ hs)]
  · rename_i ha
    simp [ha]

/-- What a sequence of byte writes leaves: the bytes written inside the space, every other byte as before. -/
theorem State.readByte_writeBytes (s : State) {sp : Space} (h : sp.isBuffer = true) (a : Nat)
    (vs : List Byte) (sp' : Space) (b : Nat) :
    (s.writeBytes sp a vs).readByte sp' b =
      if sp' = sp ∧ b < s.cfg.size sp ∧ a ≤ b ∧ b < a + vs.length then vs.getD (b - a) 0
      else s.readByte sp' b := by
  induction vs generalizing s a with
  | nil =>
    rw [if_neg (by simp only [List.length_nil]; omega)]
    rfl
  | cons v vs ih =>
    simp only [State.writeBytes, ih, State.writeByte_cfg, State.readByte_writeByte, h, true_and,
      List.length_cons]
    by_cases hs : sp' = sp
    · subst hs
      by_cases hb : b < s.cfg.size sp'
      · by_cases h1 : b = a
        · subst h1
          simp [hb]
        · by_cases h2 : a + 1 ≤ b ∧ b < a + 1 + vs.length
          · have e : b - a = (b - (a + 1)) + 1 := by omega
            rw [if_pos ⟨rfl, hb, h2⟩, if_pos ⟨rfl, hb, by omega, by omega⟩, e]
            simp
          · rw [if_neg (by tauto), if_neg (by tauto), if_neg (by omega)]
      · simp [hb]
        intro h3 h4
        exact absurd (h3 ▸ h4) hb
    · simp [hs]

/-- `writeBytes` replaces the written bytes of its space and nothing else. -/
theorem State.writeBytes_eq_setMem (s : State) (sp : Space) (a : Nat) (vs : List Byte) :
    s.writeBytes sp a vs = s.setMem sp ((s.writeBytes sp a vs).mem sp) := by
  induction vs generalizing s a with
  | nil => cases sp <;> rfl
  | cons v vs ih =>
    rw [State.writeBytes, ih]
    unfold State.writeByte
    split <;> cases sp <;> rfl

@[simp] theorem State.writeBytes_mem_ne (s : State) {sp sp' : Space} (a : Nat) (vs : List Byte)
    (h : sp' ≠ sp) : (s.writeBytes sp a vs).mem sp' = s.mem sp' := by
  rw [State.writeBytes_eq_setMem, State.mem_setMem_ne _ _ h]

theorem State.writeByte_bufferOk {s : State} {sp' : Space} (h : s.bufferOk sp') (sp : Space)
    (a : Nat) (v : Byte) : (s.writeByte sp a v).bufferOk sp' := by
  unfold State.writeByte
  split
  · rename_i ha
    by_cases hs : sp' = sp
    · subst hs
      by_cases hb : sp'.isBuffer = true
      · unfold State.bufferOk
        rw [State.mem_setMem_eq s hb]
        refine ⟨Memory.put_wf h.1 a v, fun c hc => ?_⟩
        rcases Memory.mem_put hc with rfl | hc
        · simpa using ha
        · simpa using h.2 c hc
      · cases sp' <;> first | exact h | exact absurd rfl hb
    · unfold State.bufferOk
      rw [State.mem_setMem_ne s _ hs, State.setMem_cfg]
      exact h
  · exact h

theorem State.writeBytes_bufferOk {s : State} {sp' : Space} (h : s.bufferOk sp') (sp : Space)
    (a : Nat) (vs : List Byte) : (s.writeBytes sp a vs).bufferOk sp' := by
  induction vs generalizing s a with
  | nil => exact h
  | cons v vs ih => exact ih (State.writeByte_bufferOk h sp a v) (a + 1)

@[simp] theorem State.bytesOf_length (s : State) (sp : Space) (n : Nat) :
    (s.bytesOf sp n).length = n := by simp [State.bytesOf]

theorem State.bytesOf_congr {s t : State} {sp : Space} {n : Nat}
    (h : ∀ a < n, t.readByte sp a = s.readByte sp a) : t.bytesOf sp n = s.bytesOf sp n :=
  List.map_congr_left (fun a ha => h a (List.mem_range.1 ha))

end Sys2Proof.Machine
end

