-- ==== Sys2Proof/Laws/Bits.lean ====
section
/-! SUPPORT. The packed layout of a bit-string (rules R39, R40): what each bit of a packed byte is, what is read
back after writing the packed bytes, and that one `BitWrite` changes one bit. -/

namespace Sys2Proof.Machine

theorem ofBoolListBE_bits : ∀ a b c d e f g h : Bool,
    let v := BitVec.ofBoolListBE [a, b, c, d, e, f, g, h]
    v.getLsbD 7 = a ∧ v.getLsbD 6 = b ∧ v.getLsbD 5 = c ∧ v.getLsbD 4 = d ∧
      v.getLsbD 3 = e ∧ v.getLsbD 2 = f ∧ v.getLsbD 1 = g ∧ v.getLsbD 0 = h := by
  decide

theorem packByte_bit (bs : BitString) {i : Nat} (h : i < 8) :
    (packByte bs).getLsbD (7 - i) = bs.getD i false := by
  unfold packByte
  have H := ofBoolListBE_bits (bs.getD 0 false) (bs.getD 1 false) (bs.getD 2 false) (bs.getD 3 false)
    (bs.getD 4 false) (bs.getD 5 false) (bs.getD 6 false) (bs.getD 7 false)
  interval_cases i <;> tauto

@[simp] theorem packBits_length (bs : BitString) : (packBits bs).length = (bs.length + 7) / 8 := by
  simp [packBits]

theorem packBits_getD (bs : BitString) {i : Nat} (h : i < (bs.length + 7) / 8) :
    (packBits bs).getD i 0 = packByte (bs.drop (8 * i)) := by
  simp [packBits, List.getD, h]

theorem getD_drop (bs : BitString) (n i : Nat) : (bs.drop n).getD i false = bs.getD (n + i) false := by
  simp [List.getD]

/-- Every bit of the packed bytes is the bit of the string there, the pad bits 0 (rules R39, R40). -/
theorem packBits_bit (bs : BitString) {k : Nat} (h : k / 8 < (bs.length + 7) / 8) :
    ((packBits bs).getD (k / 8) 0).getLsbD (7 - k % 8) = bs.getD k false := by
  rw [packBits_getD bs h, packByte_bit _ (Nat.mod_lt k (by omega)), getD_drop, Nat.div_add_mod]

theorem setBit_bit (v : Byte) {i j : Nat} (hj : j < 8) (b : Bool) :
    (setBit v i b).getLsbD j = if j = i then b else v.getLsbD j := by
  unfold setBit
  cases b <;> simp [hj] <;>
    by_cases h : j = i <;> simp [h] <;> omega

theorem State.size_bitBuf (s : State) : s.cfg.size .bitBuf = s.cfg.bitBufBytes.toNat := rfl

/-- `BitRead` after `BitWrite` (rule R39): one bit of the buffer changes. -/
theorem State.bitRead_bitWrite (s : State) {k : Nat} (hk : k < s.cfg.bitCap) (b : Bool) (j : Nat) :
    (s.bitWrite k b).bitRead j = if j = k then b else s.bitRead j := by
  have hk' : k / 8 < s.cfg.size .bitBuf := by
    rw [State.size_bitBuf]
    unfold Config.bitCap at hk
    omega
  unfold State.bitWrite State.bitRead
  rw [State.readByte_writeByte]
  by_cases h : j / 8 = k / 8
  · rw [if_pos ⟨rfl, rfl, h, hk'⟩, setBit_bit _ (by omega), h]
    by_cases e : j = k
    · simp [e]
    · rw [if_neg (by omega), if_neg e]
  · rw [if_neg (by tauto), if_neg (by rintro rfl; exact h rfl)]

theorem State.bitRead_congr {s t : State} (h : t.readByte .bitBuf = s.readByte .bitBuf) :
    t.bitRead = s.bitRead := by
  funext k
  simp [State.bitRead, h]

/-- The bits read back after writing a packed bit-string that fits (rules R39, R40): the string, then the pad bits,
all 0, up to the end of its last byte. -/
theorem State.bitRead_writePacked (s : State) {bs : BitString} (hb : bs.length ≤ s.cfg.bitCap)
    {k : Nat} (h : k / 8 < (bs.length + 7) / 8) :
    (s.writeBytes .bitBuf 0 (packBits bs)).bitRead k = bs.getD k false := by
  unfold State.bitRead
  rw [State.readByte_writeBytes s rfl]
  rw [if_pos]
  · exact packBits_bit bs h
  · rw [State.size_bitBuf, packBits_length]
    unfold Config.bitCap at hb
    refine ⟨rfl, ?_, ?_, ?_⟩ <;> omega

/-- The bit-string a command reads back after the packed bytes were written. -/
theorem State.bits_writePacked (s : State) {bs : BitString} (hb : bs.length ≤ s.cfg.bitCap) {t : State}
    (ht : t.bitRead = (s.writeBytes .bitBuf 0 (packBits bs)).bitRead)
    (hl : t.bitLen.toNat = bs.length) : t.bits = bs := by
  unfold State.bits
  rw [hl, ht]
  apply List.ext_getElem
  · simp
  · intro i h1 h2
    simp only [List.length_map, List.length_range] at h1
    rw [List.getElem_map, List.getElem_range, State.bitRead_writePacked s hb (by omega)]
    simp [List.getD, h1]

theorem bitCap_lt (c : Config) : c.bitCap < 2 ^ 32 := by
  have := c.bitBufBytes.isLt
  unfold Config.bitCap
  omega

/-- The later of two writes to one byte stands. -/
theorem State.writeByte_writeByte (s : State) (sp : Space) (a : Nat) (v w : Byte) :
    (s.writeByte sp a v).writeByte sp a w = s.writeByte sp a w := by
  have h2 : ∀ m m', (s.setMem sp m).setMem sp m' = s.setMem sp m' := by
    intro m m'
    cases sp <;> rfl
  unfold State.writeByte
  by_cases h : a < s.cfg.size sp
  · rw [if_pos h, if_pos (by simpa using h), if_pos h, h2]
    cases sp <;> first | rfl | simp only [State.setMem, State.mem, Memory.put_put]
  · rw [if_neg h, if_neg h]

/-- Writing the bits of two strings one after the other. -/
theorem State.bitWriteAll_append (s : State) (k : Nat) (a b : BitString) :
    s.bitWriteAll k (a ++ b) = (s.bitWriteAll k a).bitWriteAll (k + a.length) b := by
  induction a generalizing s k with
  | nil => rfl
  | cons x a ih =>
    simp only [List.cons_append, State.bitWriteAll, ih, List.length_cons,
      show k + 1 + a.length = k + (a.length + 1) by omega]

/-- Setting the eight bits of a byte, first to last, leaves the byte packed from them (rules R39, R40). -/
theorem setBit_all (v : Byte) (a b c d e f g h : Bool) :
    setBit (setBit (setBit (setBit (setBit (setBit (setBit (setBit v 7 a) 6 b) 5 c) 4 d) 3 e) 2 f) 1 g) 0 h =
      BitVec.ofBoolListBE [a, b, c, d, e, f, g, h] := by
  have H := ofBoolListBE_bits a b c d e f g h
  simp only at H
  obtain ⟨h7, h6, h5, h4, h3, h2, h1, h0⟩ := H
  ext i hi
  rw [← BitVec.getLsbD_eq_getElem, ← BitVec.getLsbD_eq_getElem]
  simp only [setBit_bit _ hi]
  interval_cases i <;> simp only [*] <;> simp

end Sys2Proof.Machine
end

