-- ==== Sys2Proof/Laws/Codes.lean ====
section
/-! SUPPORT. Trees, paths and code tables (rules R30, R63, R74): the table of a tree with distinct leaf symbols
holds the path to each leaf and nothing else. -/

namespace Sys2Proof.Machine

@[simp] theorem Tree.child_nil (b : Bool) : Tree.nil.child b = .nil := by cases b <;> rfl

@[simp] theorem Tree.child_leaf (s : Byte) (b : Bool) : (Tree.leaf s).child b = .nil := by
  cases b <;> rfl

@[simp] theorem Tree.child_false (l r : Tree) : (Tree.internal l r).child false = l := rfl

@[simp] theorem Tree.child_true (l r : Tree) : (Tree.internal l r).child true = r := rfl

@[simp] theorem Tree.follow_empty (t : Tree) : t.follow [] = t := rfl

@[simp] theorem Tree.follow_cons (t : Tree) (b : Bool) (p : BitString) :
    t.follow (b :: p) = (t.child b).follow p := rfl

@[simp] theorem Tree.follow_nil (p : BitString) : Tree.nil.follow p = .nil := by
  induction p with
  | nil => rfl
  | cons b p ih => simpa using ih

theorem Tree.follow_append (t : Tree) (p q : BitString) :
    t.follow (p ++ q) = (t.follow p).follow q := by
  induction p generalizing t with
  | nil => rfl
  | cons b p ih => simpa using ih _

/-- A leaf ends every path through it (rule R75, item 1). -/
theorem Tree.follow_leaf_cons (s : Byte) (b : Bool) (p : BitString) :
    (Tree.leaf s).follow (b :: p) = .nil := by simp

theorem Tree.mem_leaves_of_follow {t : Tree} {p : BitString} {s : Byte}
    (h : t.follow p = .leaf s) : s ∈ t.leaves := by
  induction t generalizing p with
  | nil => simp at h
  | leaf x =>
    cases p with
    | nil => simpa [Tree.leaves, eq_comm] using h
    | cons b p => simp at h
  | internal l r ihl ihr =>
    cases p with
    | nil => simp at h
    | cons b p =>
      cases b
      · exact List.mem_append_left _ (ihl (by simpa using h))
      · exact List.mem_append_right _ (ihr (by simpa using h))

theorem Tree.exists_follow_of_mem {t : Tree} {s : Byte} (h : s ∈ t.leaves) :
    ∃ p, t.follow p = .leaf s := by
  induction t with
  | nil => simp [Tree.leaves] at h
  | leaf x => exact ⟨[], by simpa [Tree.leaves, eq_comm] using h⟩
  | internal l r ihl ihr =>
    rcases List.mem_append.1 h with h | h
    · obtain ⟨p, hp⟩ := ihl h
      exact ⟨false :: p, hp⟩
    · obtain ⟨p, hp⟩ := ihr h
      exact ⟨true :: p, hp⟩

/-! Tables -/

theorem entry_set (ct : CodeTable) (s x : Byte) (p : BitString) :
    entry (ct.set s.toNat (some p) s.isLt) x = if x = s then some p else entry ct x := by
  unfold entry
  rw [Vector.getElem_set]
  by_cases h : x = s
  · simp [h]
  · rw [if_neg (fun e => h (BitVec.eq_of_toNat_eq e.symm)), if_neg h]

@[simp] theorem entry_empty (x : Byte) : entry (Vector.replicate 256 none) x = none := by
  simp [entry]

/-- Two tables with the same entries are the same. -/
theorem codeTable_ext {a b : CodeTable} (h : ∀ s, entry a s = entry b s) : a = b := by
  apply Vector.ext
  intro i hi
  have := h (Byte.ofNat i)
  simpa [entry, Byte.ofNat, BitVec.toNat_ofNat, Nat.mod_eq_of_lt hi] using this

theorem entry_walk_of_notMem {t : Tree} {s : Byte} (h : s ∉ t.leaves) (p : BitString)
    (ct : CodeTable) : entry (walk t p ct) s = entry ct s := by
  induction t generalizing p ct with
  | nil => rfl
  | leaf x =>
    rw [walk, entry_set, if_neg]
    simpa [Tree.leaves] using h
  | internal l r ihl ihr =>
    simp only [Tree.leaves, List.mem_append, not_or] at h
    rw [walk, ihr h.2, ihl h.1]

theorem entry_walk_of_follow {t : Tree} (hn : t.leaves.Nodup) {s : Byte} {q : BitString}
    (h : t.follow q = .leaf s) (p : BitString) (ct : CodeTable) :
    entry (walk t p ct) s = some (p ++ q) := by
  induction t generalizing p q ct with
  | nil => simp at h
  | leaf x =>
    cases q with
    | nil =>
      have hx : x = s := by simpa using h
      rw [walk, entry_set, if_pos hx.symm, List.append_nil]
    | cons b q => simp at h
  | internal l r ihl ihr =>
    obtain ⟨hl, hr, hd⟩ := List.nodup_append.1 hn
    cases q with
    | nil => simp at h
    | cons b q =>
      cases b
      · have hs : s ∉ r.leaves := fun hm =>
          hd s (Tree.mem_leaves_of_follow (by simpa using h)) s hm rfl
        rw [walk, entry_walk_of_notMem hs, ihl hl (by simpa using h)]
        simp
      · rw [walk, ihr hr (by simpa using h)]
        simp

/-- The table of a tree with distinct leaf symbols (rule R74): the path to each leaf, and nothing else. -/
theorem entry_genCodes {t : Tree} (hn : t.leaves.Nodup) (s : Byte) (p : BitString) :
    entry (genCodes t) s = some p ↔ t.follow p = .leaf s := by
  constructor
  · intro h
    by_cases hs : s ∈ t.leaves
    · obtain ⟨q, hq⟩ := Tree.exists_follow_of_mem hs
      rw [genCodes, entry_walk_of_follow hn hq] at h
      simp only [List.nil_append, Option.some.injEq] at h
      exact h ▸ hq
    · rw [genCodes, entry_walk_of_notMem hs, entry_empty] at h
      cases h
  · intro h
    rw [genCodes, entry_walk_of_follow hn h, List.nil_append]

theorem entry_genCodes_isSome {t : Tree} (hn : t.leaves.Nodup) (s : Byte) :
    (entry (genCodes t) s).isSome = true ↔ s ∈ t.leaves := by
  rw [Option.isSome_iff_exists]
  constructor
  · rintro ⟨p, hp⟩
    exact Tree.mem_leaves_of_follow ((entry_genCodes hn s p).1 hp)
  · intro h
    obtain ⟨p, hp⟩ := Tree.exists_follow_of_mem h
    exact ⟨p, (entry_genCodes hn s p).2 hp⟩

/-! Legal trees (rule R30) -/

theorem Tree.legal_cases {t : Tree} (h : t.legal = true) :
    t = .nil ∨ (∃ s, t = .wrapper s) ∨
      ∃ l r, t = .internal l r ∧ l.full = true ∧ r.full = true ∧ (l.leaves ++ r.leaves).Nodup := by
  rcases t with _ | s | ⟨l, r⟩
  · exact .inl rfl
  · simp [Tree.legal, Tree.isWrapper, Tree.isFullTree] at h
  · right
    by_cases hw : (Tree.internal l r).isWrapper = true
    · left
      unfold Tree.isWrapper at hw
      split at hw
      · rename_i s e
        cases e
        exact ⟨s, rfl⟩
      · cases hw
    · right
      have : (Tree.internal l r).isFullTree = true := by
        simpa [Tree.legal, hw] using h
      simp only [Tree.isFullTree, Bool.and_eq_true, decide_eq_true_eq] at this
      exact ⟨l, r, rfl, this.1.1, this.1.2, this.2⟩

@[simp] theorem Tree.legal_nil : Tree.nil.legal = true := rfl

@[simp] theorem Tree.legal_wrapper (s : Byte) : (Tree.wrapper s).legal = true := rfl

theorem Tree.legal_internal {l r : Tree} (hl : l.full = true) (hr : r.full = true)
    (hn : (l.leaves ++ r.leaves).Nodup) : (Tree.internal l r).legal = true := by
  simp [Tree.legal, Tree.isFullTree, hl, hr, hn]

theorem Tree.legal_nodup {t : Tree} (h : t.legal = true) : t.leaves.Nodup := by
  obtain rfl | ⟨s, rfl⟩ | ⟨l, r, rfl, -, -, hn⟩ := Tree.legal_cases h
  · exact List.nodup_nil
  · exact List.nodup_singleton s
  · exact hn

/-- A held tree is never a bare leaf (rule R30). -/
theorem Tree.legal_not_leaf {t : Tree} (h : t.legal = true) (s : Byte) : t ≠ .leaf s := by
  rintro rfl
  simp [Tree.legal, Tree.isWrapper, Tree.isFullTree] at h

theorem Tree.full_ne_nil {t : Tree} (h : t.full = true) : t ≠ .nil := by
  rintro rfl
  cases h

/-- Distinct symbols bound a tree to 256 leaves (rule R7). -/
theorem Tree.leaves_length_le {t : Tree} (h : t.leaves.Nodup) : t.leaves.length ≤ 256 := by
  have hn : (t.leaves.map BitVec.toNat).Nodup := h.map (fun _ _ e => BitVec.eq_of_toNat_eq e)
  have hs : t.leaves.map BitVec.toNat ⊆ List.range 256 := by
    intro n hm
    obtain ⟨b, -, rfl⟩ := List.mem_map.1 hm
    exact List.mem_range.2 b.isLt
  have := (hn.subperm hs).length_le
  rwa [List.length_map, List.length_range] at this

/-- A path to a leaf of a full tree is shorter than its number of leaves (rule R7). -/
theorem Tree.follow_length_lt {t : Tree} (h : t.full = true) {p : BitString} {s : Byte}
    (hp : t.follow p = .leaf s) : p.length < t.leaves.length := by
  have pos : ∀ {u : Tree}, u.full = true → 0 < u.leaves.length := by
    intro u hu
    induction u with
    | nil => cases hu
    | leaf x => simp [Tree.leaves]
    | internal l r ihl ihr =>
      simp only [Tree.full, Bool.and_eq_true] at hu
      have := ihl hu.1
      simp only [Tree.leaves, List.length_append]
      omega
  induction t generalizing p with
  | nil => cases h
  | leaf x =>
    cases p with
    | nil => simp [Tree.leaves]
    | cons b p => simp at hp
  | internal l r ihl ihr =>
    simp only [Tree.full, Bool.and_eq_true] at h
    simp only [Tree.leaves, List.length_append]
    cases p with
    | nil => simp at hp
    | cons b p =>
      have h1 := pos h.1
      have h2 := pos h.2
      cases b
      · have := ihl h.1 (by simpa using hp)
        simp only [List.length_cons]
        omega
      · have := ihr h.2 (by simpa using hp)
        simp only [List.length_cons]
        omega

/-- Every code of a held tree is 1 to 255 bits long (rules R7, R63). -/
theorem Tree.code_length {t : Tree} (h : t.legal = true) {p : BitString} {s : Byte}
    (hp : t.follow p = .leaf s) : 1 ≤ p.length ∧ p.length ≤ 255 := by
  have h1 : 1 ≤ p.length := by
    cases p with
    | nil => exact absurd hp (Tree.legal_not_leaf h s)
    | cons b p => simp
  refine ⟨h1, ?_⟩
  obtain rfl | ⟨x, rfl⟩ | ⟨l, r, rfl, hl, hr, hn⟩ := Tree.legal_cases h
  · simp at hp
  · rcases p with _ | ⟨b, _ | ⟨c, p⟩⟩
    · simp
    · simp
    · cases b <;> simp [Tree.wrapper] at hp
  · have := Tree.follow_length_lt (t := .internal l r) (by simp [Tree.full, hl, hr]) hp
    have := Tree.leaves_length_le (t := .internal l r) hn
    omega

/-- The codes of a held tree are prefix-free (rule R75, item 1). -/
theorem Tree.follow_prefix {t : Tree} {p q : BitString} {s x : Byte}
    (hp : t.follow p = .leaf s) (hq : t.follow q = .leaf x) (h : p <+: q) : p = q := by
  obtain ⟨r, rfl⟩ := h
  rw [Tree.follow_append, hp] at hq
  cases r with
  | nil => simp
  | cons b r => simp at hq

/-- A tree the block can hold, other than `NIL`, has an internal root (rule R30). -/
theorem Tree.legal_root {t : Tree} (h : t.legal = true) (hn : t ≠ .nil) : ∃ l r, t = .internal l r := by
  obtain rfl | ⟨s, rfl⟩ | ⟨l, r, rfl, -⟩ := Tree.legal_cases h
  · exact absurd rfl hn
  · exact ⟨_, _, rfl⟩
  · exact ⟨_, _, rfl⟩

/-- The entries of a table, counted by symbol (rule R26). -/
theorem codeTable_countP (ct : CodeTable) :
    ct.toList.countP Option.isSome =
      (List.range 256).countP (fun n => (entry ct (Byte.ofNat n)).isSome) := by
  have : ct.toList = (List.range 256).map (fun n => entry ct (Byte.ofNat n)) := by
    apply List.ext_getElem
    · simp
    · intro i h1 h2
      simp only [Vector.length_toList] at h1
      simp [entry, Byte.ofNat, Nat.mod_eq_of_lt h1]
  rw [this, List.countP_map]
  rfl

end Sys2Proof.Machine
end

