-- ==== Sys2Proof/Laws/Builder.lean ====
section
/-! SUPPORT. The frequency counter and the tree builder (rules R66 to R73): the counts, the entry `ExtractMin`
takes, and the tree the merges give. -/

namespace Sys2Proof.Machine

/-- The count of a byte (rule R66). -/
theorem countOf_freqCount (bytes : List Byte) (s : Byte) :
    countOf (freqCount bytes) s = Word.ofNat (bytes.count s) := by
  simp [countOf, freqCount, Byte.ofNat]

/-- No count wraps for an input that fits `IN_LEN` (rule R67). -/
theorem countOf_freqCount_toNat {bytes : List Byte} (h : bytes.length < 2 ^ 32) (s : Byte) :
    (countOf (freqCount bytes) s).toNat = bytes.count s := by
  rw [countOf_freqCount]
  exact Nat.mod_eq_of_lt (lt_of_le_of_lt List.count_le_length h)

theorem mem_presentSymbols (freq : FreqTable) (s : Byte) :
    s ∈ presentSymbols freq ↔ countOf freq s ≠ 0 := by
  have : ∃ n < 256, Byte.ofNat n = s := ⟨s.toNat, s.isLt, by simp [Byte.ofNat]⟩
  simp only [presentSymbols, List.mem_filter, List.mem_map, List.mem_range, bne_iff_ne, this, true_and]

theorem presentSymbols_nodup (freq : FreqTable) : (presentSymbols freq).Nodup := by
  apply List.Nodup.filter
  apply List.Nodup.map_on _ List.nodup_range
  intro a ha b hb h
  have := congrArg BitVec.toNat h
  simpa [Byte.ofNat, Nat.mod_eq_of_lt (List.mem_range.1 ha), Nat.mod_eq_of_lt (List.mem_range.1 hb)]
    using this

/-- A byte of the input is a present symbol (rule R66). -/
theorem mem_presentSymbols_freqCount {bytes : List Byte} (h : bytes.length < 2 ^ 32) (s : Byte) :
    s ∈ presentSymbols (freqCount bytes) ↔ s ∈ bytes := by
  rw [mem_presentSymbols, ← List.count_pos_iff, ← countOf_freqCount_toNat h, Nat.pos_iff_ne_zero, ne_eq,
    ne_eq, not_iff_not]
  constructor
  · intro e; simp [e]
  · intro e; exact BitVec.eq_of_toNat_eq (by simpa using e)

/-! ExtractMin -/

theorem Entry.before_iff (a b : Entry) :
    a.before b = true ↔ a.w < b.w ∨ (a.w = b.w ∧ a.q < b.q) := by
  simp [Entry.before]

/-- `ExtractMin` takes an entry no other precedes and keeps the others (rule R68). -/
theorem extractMin_some {queue : List Entry} {e : Entry} {rest : List Entry}
    (h : extractMin queue = some (e, rest)) :
    (e :: rest).Perm queue ∧ ∀ x ∈ rest, x.before e = false := by
  induction queue generalizing e rest with
  | nil => simp [extractMin] at h
  | cons a es ih =>
    unfold extractMin at h
    split at h
    · rename_i hn
      have : es = [] := by
        cases es with
        | nil => rfl
        | cons b bs =>
          unfold extractMin at hn
          split at hn <;> first | cases hn | (split at hn <;> cases hn)
      subst this
      cases h
      simp
    · rename_i m r hm
      obtain ⟨hp, hmin⟩ := ih hm
      split at h
      · rename_i hb
        cases h
        refine ⟨(List.Perm.swap a e r).trans (hp.cons a), ?_⟩
        intro x hx
        rcases List.mem_cons.1 hx with rfl | hx
        · rw [Bool.eq_false_iff, ne_eq, Entry.before_iff]
          rw [Entry.before_iff] at hb
          omega
        · exact hmin x hx
      · rename_i hb
        cases h
        refine ⟨List.Perm.refl _, ?_⟩
        intro x hx
        rw [Entry.before_iff] at hb
        rw [Bool.eq_false_iff, ne_eq, Entry.before_iff]
        rcases List.mem_cons.1 (hp.mem_iff.2 hx) with rfl | hx
        · exact hb
        · have := hmin x hx
          rw [Bool.eq_false_iff, ne_eq, Entry.before_iff] at this
          omega

theorem extractMin_none {queue : List Entry} : extractMin queue = none ↔ queue = [] := by
  cases queue with
  | nil => simp [extractMin]
  | cons a es =>
    simp only [reduceCtorEq, iff_false]
    unfold extractMin
    split
    · simp
    · split <;> simp

/-! The merges -/

/-- The symbols of the leaves of a queue's trees. -/
def queueLeaves (queue : List Entry) : List Byte := queue.flatMap (fun e => e.t.leaves)

theorem queueLeaves_perm {a b : List Entry} (h : a.Perm b) : (queueLeaves a).Perm (queueLeaves b) :=
  h.flatMap_right _

/-- The merges of a queue of full trees give one full tree with the queue's leaves, an internal node if anything
was merged (rules R68, R73). -/
theorem mergeAll_spec {n : Nat} {queue : List Entry} (h0 : queue ≠ []) (hn : queue.length ≤ n)
    (hf : ∀ e ∈ queue, e.t.full = true) (q : Nat) :
    (mergeAll n queue q).full = true ∧ ((mergeAll n queue q).leaves).Perm (queueLeaves queue) ∧
      (2 ≤ queue.length → ∃ l r, mergeAll n queue q = .internal l r) := by
  induction n generalizing queue q with
  | zero => exact absurd (List.length_eq_zero_iff.1 (Nat.le_zero.1 hn)) h0
  | succ n ih =>
    unfold mergeAll
    split
    · rename_i e
      exact absurd (extractMin_none.1 e) h0
    · rename_i a rest ha
      obtain ⟨pa, -⟩ := extractMin_some ha
      have fa : a.t.full = true := hf a (pa.mem_iff.1 (by simp))
      split
      · rename_i e
        have e := extractMin_none.1 e
        subst e
        refine ⟨fa, ?_, ?_⟩
        · have := queueLeaves_perm pa
          simpa [queueLeaves] using this
        · intro h2
          have := pa.length_eq
          simp only [List.length_cons, List.length_nil] at this
          omega
      · rename_i b rest' hb
        obtain ⟨pb, -⟩ := extractMin_some hb
        have pq : (a :: b :: rest').Perm queue := (pb.cons a).trans pa
        have fb : b.t.full = true := hf b (pq.mem_iff.1 (by simp))
        have hlen := pq.length_eq
        simp only [List.length_cons] at hlen
        have hnew : ∀ e ∈ (⟨a.w + b.w, q, .internal a.t b.t⟩ :: rest' : List Entry), e.t.full = true := by
          intro e he
          rcases List.mem_cons.1 he with rfl | he
          · simp [Tree.full, fa, fb]
          · exact hf e (pq.mem_iff.1 (by simp [he]))
        obtain ⟨h1, h2, h3⟩ := ih (queue := ⟨a.w + b.w, q, .internal a.t b.t⟩ :: rest') (by simp)
          (by simp only [List.length_cons]; omega) hnew (q + 1)
        refine ⟨h1, ?_, ?_⟩
        · refine h2.trans (List.Perm.trans ?_ (queueLeaves_perm pq))
          simp [queueLeaves, Tree.leaves]
        · intro _
          by_cases hr : rest' = []
          · subst hr
            cases n with
            | zero => simp only [List.length_nil] at hlen; omega
            | succ n => exact ⟨a.t, b.t, by simp [mergeAll, extractMin]⟩
          · exact h3 (by
              have := List.length_pos_iff.2 hr
              simp only [List.length_cons]
              omega)

@[simp] theorem leafQueue_length (freq : FreqTable) :
    (leafQueue freq).length = (presentSymbols freq).length := by simp [leafQueue]

/-- The entry of the `i`-th present symbol (rules R68, R69). -/
theorem leafQueue_getElem? (freq : FreqTable) (i : Nat) :
    (leafQueue freq)[i]? =
      (presentSymbols freq)[i]?.map (fun s => ⟨(countOf freq s).toNat, i, .leaf s⟩) := by
  simp only [leafQueue, List.getElem?_map, List.getElem?_zipIdx, Option.map_map]
  simp [Function.comp_def]

theorem leafQueue_leaf {freq : FreqTable} {e : Entry} (h : e ∈ leafQueue freq) :
    ∃ s, e.t = .leaf s := by
  obtain ⟨p, -, rfl⟩ := List.mem_map.1 h
  exact ⟨p.1, rfl⟩

theorem leafQueue_leaves (freq : FreqTable) : queueLeaves (leafQueue freq) = presentSymbols freq := by
  have : ∀ (l : List Byte) (k : Nat),
      queueLeaves ((l.zipIdx k).map (fun p => ⟨(countOf freq p.1).toNat, p.2, .leaf p.1⟩)) = l := by
    intro l
    induction l with
    | nil => intro k; rfl
    | cons a l ih =>
      intro k
      have := ih (k + 1)
      simp only [queueLeaves, List.zipIdx_cons, List.map_cons, List.flatMap_cons, Tree.leaves] at this ⊢
      rw [this]
      rfl
  exact this _ 0

/-- The tree that `Build` returns (rules R71, R72, R73): nothing for no present symbol, the wrapper for one, a full
tree with an internal root for more; its leaves are the present symbols. -/
theorem build_cases (freq : FreqTable) :
    (presentSymbols freq = [] ∧ build freq = .nil) ∨
    (∃ s, presentSymbols freq = [s] ∧ build freq = .wrapper s) ∨
    (2 ≤ (presentSymbols freq).length ∧ (build freq).leaves.Perm (presentSymbols freq) ∧
      ∃ l r, build freq = .internal l r ∧ l.full = true ∧ r.full = true) := by
  have hl := leafQueue_leaves freq
  have hlen := leafQueue_length freq
  unfold build
  split
  · rename_i e
    left
    rw [e] at hl
    exact ⟨hl.symm, rfl⟩
  · rename_i e h
    right; left
    obtain ⟨s, hs⟩ := leafQueue_leaf (freq := freq) (e := e) (by simp [h])
    rw [h] at hl
    refine ⟨s, ?_, by rw [hs]; rfl⟩
    rw [← hl]
    simp [queueLeaves, hs, Tree.leaves]
  · rename_i h0 h1
    right; right
    have h2 : 2 ≤ (leafQueue freq).length := by
      rcases hq : leafQueue freq with _ | ⟨a, _ | ⟨b, r⟩⟩
      · exact absurd hq h0
      · exact absurd hq (h1 a)
      · simp
    obtain ⟨hf, hp, hi⟩ := mergeAll_spec (queue := leafQueue freq) h0 le_rfl (fun e he => by
      obtain ⟨s, hs⟩ := leafQueue_leaf he
      rw [hs]; rfl) (leafQueue freq).length
    obtain ⟨l, r, e⟩ := hi h2
    rw [e, Tree.full, Bool.and_eq_true] at hf
    refine ⟨hlen ▸ h2, hl ▸ hp, l, r, e, hf.1, hf.2⟩

/-- The leaves of the built tree are exactly the present symbols, each once (rule R73, item 1). -/
theorem build_leaves_perm (freq : FreqTable) : (build freq).leaves.Perm (presentSymbols freq) := by
  obtain ⟨h, e⟩ | ⟨s, h, e⟩ | ⟨-, h, -⟩ := build_cases freq
  · simp [h, e, Tree.leaves]
  · simp [h, e, Tree.wrapper, Tree.leaves]
  · exact h

theorem build_nodup (freq : FreqTable) : (build freq).leaves.Nodup :=
  (build_leaves_perm freq).nodup_iff.2 (presentSymbols_nodup freq)

/-- The built tree has a shape of rule R30. -/
theorem build_legal (freq : FreqTable) : (build freq).legal = true := by
  obtain ⟨-, e⟩ | ⟨s, -, e⟩ | ⟨-, -, l, r, e, hl, hr⟩ := build_cases freq
  · rw [e]; rfl
  · rw [e]; rfl
  · have := build_nodup freq
    rw [e] at this ⊢
    exact Tree.legal_internal hl hr this

/-- Every byte of the input has a code in the table of the tree built from it (rule R79). -/
theorem entry_fresh {bytes : List Byte} (h : bytes.length < 2 ^ 32) (s : Byte) :
    (entry (genCodes (build (freqCount bytes))) s).isSome = true ↔ s ∈ bytes := by
  rw [entry_genCodes_isSome (build_nodup _), (build_leaves_perm _).mem_iff,
    mem_presentSymbols_freqCount h]

end Sys2Proof.Machine
end

