-- ==== Sys2Proof/Laws/Encode.lean ====
section
/-! SUPPORT. The encoder (rules R77 to R80): the capacity check, the encoded length, and the three ways `ENCODE`
ends. -/

namespace Sys2Proof.Machine

@[simp] theorem encodeBits_nil (ct : CodeTable) : encodeBits ct [] = [] := rfl

@[simp] theorem encodeBits_cons (ct : CodeTable) (b : Byte) (bs : List Byte) :
    encodeBits ct (b :: bs) = codeOf ct b ++ encodeBits ct bs := by simp [encodeBits]

theorem encodeBits_append (ct : CodeTable) (a b : List Byte) :
    encodeBits ct (a ++ b) = encodeBits ct a ++ encodeBits ct b := by simp [encodeBits]

theorem codeOf_of_entry {ct : CodeTable} {s : Byte} {p : BitString} (h : entry ct s = some p) :
    codeOf ct s = p := by simp [codeOf, h]

/-- The check finds no byte exactly when the whole encoded length fits (rules R77, R78). -/
theorem firstPast_none {ct : CodeTable} {cap : Nat} (bytes : List Byte) (i total : Nat)
    (h : total ≤ cap) :
    firstPast ct cap bytes i total = none ↔ total + (encodeBits ct bytes).length ≤ cap := by
  induction bytes generalizing i total with
  | nil => simpa [firstPast] using h
  | cons b bs ih =>
    rw [firstPast]
    split
    · simp only [reduceCtorEq, encodeBits_cons, List.length_append, false_iff]
      omega
    · rw [ih _ _ (by omega)]
      simp only [encodeBits_cons, List.length_append]
      omega

/-- The check finds the first byte at which the running total passes the capacity (rule R77). -/
theorem firstPast_some {ct : CodeTable} {cap : Nat} {bytes : List Byte} {i total j : Nat}
    (h : total ≤ cap) (hj : firstPast ct cap bytes i total = some j) :
    ∃ n, j = i + n ∧ n < bytes.length ∧
      total + (encodeBits ct (bytes.take n)).length ≤ cap ∧
      cap < total + (encodeBits ct (bytes.take (n + 1))).length := by
  induction bytes generalizing i total with
  | nil => simp [firstPast] at hj
  | cons b bs ih =>
    rw [firstPast] at hj
    split at hj
    · rename_i hp
      cases hj
      exact ⟨0, by simp, by simp, by simpa using h, by simpa using hp⟩
    · rename_i hp
      obtain ⟨n, h1, h2, h3, h4⟩ := ih (by omega) hj
      refine ⟨n + 1, by omega, by simpa using h2, ?_, ?_⟩
      · rw [List.take_succ_cons, encodeBits_cons, List.length_append]
        omega
      · rw [List.take_succ_cons, encodeBits_cons, List.length_append]
        omega

/-- The encoded length is the sum of the code lengths (rule R78). -/
theorem encodeBits_length (ct : CodeTable) (bytes : List Byte) :
    (encodeBits ct bytes).length = (bytes.map (fun b => (codeOf ct b).length)).sum := by
  simp [encodeBits, List.length_flatMap]

@[simp] theorem State.inBytes_length (s : State) : s.inBytes.length = s.inLen.toNat := by
  simp [State.inBytes]

@[simp] theorem State.inBytes_freshTables (s : State) : s.freshTables.inBytes = s.inBytes := by
  unfold State.inBytes
  rw [State.freshTables_inLen]
  exact State.bytesOf_congr (fun a _ =>
    congrFun (State.readByte_congr_buffer rfl rfl rfl rfl) a)

/-- The three ways `ENCODE` ends (rule R77): `CAP_IN`; `CAP_BIT` at the first byte past the capacity; the
bit-string written. -/
theorem execEncode_cases (s : State) :
    (s.cfg.inCap.toNat < s.inLen.toNat ∧
      execEncode s = .next (s.complete (.capacity .capIn 0))) ∨
    (s.inLen.toNat ≤ s.cfg.inCap.toNat ∧ ∃ i, i < s.inLen.toNat ∧
      (encodeBits s.freshTables.ct (s.inBytes.take i)).length ≤ s.cfg.bitCap ∧
      s.cfg.bitCap < (encodeBits s.freshTables.ct (s.inBytes.take (i + 1))).length ∧
      s.cfg.bitCap < (encodeBits s.freshTables.ct s.inBytes).length ∧
      execEncode s =
        .next (State.complete { s.freshTables with bitLen := 0 } (.capacity .capBit i))) ∨
    (s.inLen.toNat ≤ s.cfg.inCap.toNat ∧
      (encodeBits s.freshTables.ct s.inBytes).length ≤ s.cfg.bitCap ∧
      execEncode s = .next (State.complete
        { s.freshTables.writeBytes .bitBuf 0 (packBits (encodeBits s.freshTables.ct s.inBytes)) with
          bitLen := Word.ofNat (encodeBits s.freshTables.ct s.inBytes).length } .ok)) := by
  unfold execEncode
  by_cases h : s.inLen.toNat > s.cfg.inCap.toNat
  · left
    exact ⟨h, by rw [if_pos h]⟩
  · right
    rw [if_neg h]
    simp only [State.inBytes_freshTables]
    split
    · rename_i i hi
      left
      refine ⟨by omega, i, ?_⟩
      obtain ⟨n, h1, h2, h3, h4⟩ := firstPast_some (Nat.zero_le _) hi
      simp only [Nat.zero_add] at h1 h3 h4
      subst h1
      refine ⟨by simpa using h2, h3, h4, ?_, rfl⟩
      refine lt_of_lt_of_le h4 ?_
      conv_rhs => rw [← List.take_append_drop (i + 1) s.inBytes, encodeBits_append, List.length_append]
      exact Nat.le_add_right _ _
    · rename_i hi
      right
      refine ⟨by omega, ?_, rfl⟩
      have := (firstPast_none s.inBytes 0 0 (Nat.zero_le _)).1 hi
      simpa using this

/-- A sum over the bytes of a sequence is a sum over the 256 symbols, weighted by their counts. -/
theorem sum_map_eq_sum_count (f : Byte → Nat) (bytes : List Byte) :
    (bytes.map f).sum =
      ((List.range 256).map (fun n => bytes.count (Byte.ofNat n) * f (Byte.ofNat n))).sum := by
  have hz : ∀ l : List Nat,
      (l.map (fun n => ([] : List Byte).count (Byte.ofNat n) * f (Byte.ofNat n))).sum = 0 := by
    intro l
    induction l with
    | nil => rfl
    | cons x l ih =>
      rw [List.map_cons, List.sum_cons, ih]
      simp
  have hone : ∀ (l : List Nat) (c k : Nat), l.Nodup →
      (l.map (fun n => if n = k then c else 0)).sum = if k ∈ l then c else 0 := by
    intro l c k hl
    induction l with
    | nil => simp
    | cons x l ih =>
      rw [List.nodup_cons] at hl
      rw [List.map_cons, List.sum_cons, ih hl.2]
      by_cases hx : x = k
      · subst hx
        simp [hl.1]
      · simp [hx, Ne.symm hx]
  induction bytes with
  | nil => exact (hz _).symm
  | cons b bs ih =>
    have hcount : (List.range 256).map (fun n => (b :: bs).count (Byte.ofNat n) * f (Byte.ofNat n)) =
        (List.range 256).map (fun n =>
          bs.count (Byte.ofNat n) * f (Byte.ofNat n) + if n = b.toNat then f b else 0) := by
      apply List.map_congr_left
      intro n hn
      have hn := List.mem_range.1 hn
      rw [List.count_cons]
      by_cases h : n = b.toNat
      · subst h
        simp only [Byte.ofNat, BitVec.ofNat_toNat, BitVec.setWidth_eq, beq_self_eq_true, if_true]
        ring
      · have : ¬ b = Byte.ofNat n := by
          rintro rfl
          apply h
          simp [Byte.ofNat, Nat.mod_eq_of_lt hn]
        simp [h, this]
    rw [hcount, List.map_cons, List.sum_cons, ih, List.sum_map_add, hone _ _ _ List.nodup_range,
      if_pos (List.mem_range.2 b.isLt), Nat.add_comm]

end Sys2Proof.Machine
end

