-- ==== Sys2Proof/Laws/Tokens.lean ====
section
/-! SUPPORT. The serializer and the deserializer (rules R86 to R98): what a successful parse has read, that a
full tree's tokens parse back, and that the parse and the scan of rule R98 report the same. -/

namespace Sys2Proof.Machine

theorem markers_ne : markerInternal ≠ markerLeaf := by decide

/-- What `Sub` has read when it succeeds (rule R90): exactly the tokens of a full subtree, whose symbols are
new; the root is no leaf. -/
structure ParsedFrom (isRoot : Bool) (toks : List Byte) (pos : Nat) (seen : List Byte) (p : Parsed) :
    Prop where
  /-- The bytes read are the tokens of the subtree. -/
  toks_eq : toks = serialize p.tree ++ p.rest
  /-- The cursor moved past them. -/
  pos_eq : p.pos = pos + (serialize p.tree).length
  /-- Its symbols were added. -/
  seen_eq : p.seen = p.tree.leaves.reverse ++ seen
  /-- It is a full subtree. -/
  full : p.tree.full = true
  /-- No symbol repeats. -/
  nodup : seen.Nodup → p.seen.Nodup
  /-- A root is an internal node (rule R95). -/
  internal : isRoot = true → ∃ l r, p.tree = .internal l r

theorem parseSub_ok {n : Nat} {isRoot : Bool} {toks : List Byte} {pos : Nat} {seen : List Byte}
    {p : Parsed} (h : parseSub n isRoot toks pos seen = .ok p) : ParsedFrom isRoot toks pos seen p := by
  induction n generalizing isRoot toks pos seen p with
  | zero => simp [parseSub] at h
  | succ n ih =>
    unfold parseSub at h
    split at h
    · cases h
    · rename_i m rest
      split at h
      · cases h
      · rename_i hm
        split at h
        · rename_i hm1
          split at h
          · cases h
          · rename_i hroot
            split at h
            · cases h
            · rename_i s rest'
              split at h
              · cases h
              · rename_i hs
                cases h
                subst hm1
                exact ⟨rfl, rfl, rfl, rfl, fun hn => List.nodup_cons.2 ⟨hs, hn⟩,
                  fun hr => absurd hr hroot⟩
        · rename_i hm1
          have hm0 : m = markerInternal := by
            by_contra hne
            exact hm ⟨hne, hm1⟩
          subst hm0
          split at h
          · cases h
          · rename_i l hl
            split at h
            · cases h
            · rename_i r hr
              cases h
              have Hl := ih hl
              have Hr := ih hr
              refine ⟨?_, ?_, ?_, ?_, fun hn => Hr.nodup (Hl.nodup hn), fun _ => ⟨_, _, rfl⟩⟩
              · simp [serialize, Hl.toks_eq, Hr.toks_eq]
              · simp [serialize, Hl.pos_eq, Hr.pos_eq]
                omega
              · simp [Tree.leaves, Hl.seen_eq, Hr.seen_eq]
              · simp [Tree.full, Hl.full, Hr.full]

/-- The tokens of a full tree with new, distinct symbols parse back to it (rule R99). -/
theorem parseSub_serialize {t : Tree} (hf : t.full = true) {n : Nat} (hn : (serialize t).length ≤ n)
    {isRoot : Bool} (hroot : isRoot = true → ∃ l r, t = .internal l r) (rest : List Byte) (pos : Nat)
    {seen : List Byte} (hd : (t.leaves ++ seen).Nodup) :
    parseSub n isRoot (serialize t ++ rest) pos seen =
      .ok ⟨t, rest, pos + (serialize t).length, t.leaves.reverse ++ seen⟩ := by
  induction t generalizing n isRoot rest pos seen with
  | nil => cases hf
  | leaf s =>
    cases n with
    | zero => simp [serialize] at hn
    | succ n =>
      cases isRoot with
      | true =>
        obtain ⟨l, r, h⟩ := hroot rfl
        cases h
      | false =>
        have hs : s ∉ seen := by
          simp only [Tree.leaves, List.singleton_append, List.nodup_cons] at hd
          exact hd.1
        simp [serialize, parseSub, hs, Tree.leaves, markers_ne.symm]
  | internal l r ihl ihr =>
    cases n with
    | zero => simp [serialize] at hn
    | succ n =>
      simp only [Tree.full, Bool.and_eq_true] at hf
      simp only [serialize, List.length_cons, List.length_append] at hn
      simp only [Tree.leaves, List.append_assoc] at hd
      have hdl : (l.leaves ++ seen).Nodup :=
        hd.sublist (List.Sublist.append (List.Sublist.refl _) (List.sublist_append_right _ _))
      have hdr : (r.leaves ++ (l.leaves.reverse ++ seen)).Nodup := by
        have : List.Perm (l.leaves ++ (r.leaves ++ seen)) (r.leaves ++ (l.leaves.reverse ++ seen)) := by
          refine List.perm_append_comm.trans ?_
          rw [List.append_assoc]
          exact List.Perm.append_left _ (List.perm_append_comm.trans
            ((List.reverse_perm _).symm.append_right _))
        exact this.nodup_iff.1 hd
      have el := ihl hf.1 (n := n) (by omega) (isRoot := false) (by simp)
        (serialize r ++ rest) (pos + 1) hdl
      have er := ihr hf.2 (n := n) (by omega) (isRoot := false) (by simp) rest
        (pos + 1 + (serialize l).length) hdr
      simp [serialize, parseSub, markers_ne, el, er, Tree.leaves]
      omega

theorem serialize_length_pos {t : Tree} (h : t.full = true) : 2 ≤ (serialize t).length := by
  induction t with
  | nil => cases h
  | leaf s => simp [serialize]
  | internal l r ihl ihr =>
    simp only [Tree.full, Bool.and_eq_true] at h
    have := ihl h.1
    simp only [serialize, List.length_cons, List.length_append]
    omega

/-- The length of a full subtree's tokens (rule R88). -/
theorem serialize_length {t : Tree} (h : t.full = true) :
    (serialize t).length + 1 = 3 * t.leaves.length := by
  induction t with
  | nil => cases h
  | leaf s => simp [serialize, Tree.leaves]
  | internal l r ihl ihr =>
    simp only [Tree.full, Bool.and_eq_true] at h
    have := ihl h.1
    have := ihr h.2
    simp only [serialize, List.length_cons, List.length_append, Tree.leaves]
    omega

/-- The tokens of a held tree fit `TOK_BUF` (rules R7, R88). -/
theorem serialize_length_le {t : Tree} (h : t.legal = true) : (serialize t).length ≤ 767 := by
  obtain rfl | ⟨s, rfl⟩ | ⟨l, r, rfl, hl, hr, hn⟩ := Tree.legal_cases h
  · simp [serialize]
  · simp [Tree.wrapper, serialize]
  · have := serialize_length (t := .internal l r) (by simp [Tree.full, hl, hr])
    have := Tree.leaves_length_le (t := .internal l r) hn
    omega

/-- `Deserialize` outside its two special cases is one subtree and nothing after it (rule R90). -/
theorem deserialize_eq_parseTree {toks : List Byte} (h0 : toks ≠ [])
    (h3 : ∀ s, toks ≠ serialize (.wrapper s)) : deserialize toks = parseTree toks := by
  unfold deserialize
  split
  · exact absurd rfl h0
  · rename_i a b s
    rw [if_neg]
    rintro ⟨rfl, rfl⟩
    exact h3 s rfl
  · rfl

theorem deserialize_wrapper (s : Byte) : deserialize (serialize (.wrapper s)) = .ok (.wrapper s) := by
  simp [Tree.wrapper, serialize, deserialize]

theorem parseTree_ok {toks : List Byte} {t : Tree} (h : parseTree toks = .ok t) :
    toks = serialize t ∧ t.full = true ∧ t.leaves.Nodup ∧ ∃ l r, t = .internal l r := by
  unfold parseTree at h
  split at h
  · cases h
  · rename_i p hp
    have H := parseSub_ok hp
    split at h
    · cases h
    · rename_i hr
      have hr : p.rest = [] := by simpa using hr
      cases h
      refine ⟨by simpa [hr] using H.toks_eq, H.full, ?_, H.internal rfl⟩
      have := H.nodup List.nodup_nil
      rw [H.seen_eq, List.append_nil] at this
      exact List.nodup_reverse.1 this

theorem parseTree_serialize {l r : Tree} (hl : l.full = true) (hr : r.full = true)
    (hn : (l.leaves ++ r.leaves).Nodup) :
    parseTree (serialize (.internal l r)) = .ok (.internal l r) := by
  have h := parseSub_serialize (t := .internal l r) (by simp [Tree.full, hl, hr])
    (n := (serialize (.internal l r)).length + 1) (by omega) (isRoot := true) (fun _ => ⟨l, r, rfl⟩)
    [] 0 (seen := []) (by simpa [Tree.leaves] using hn)
  rw [List.append_nil] at h
  unfold parseTree
  rw [h]
  simp

theorem serialize_internal_ne_wrapper {l r : Tree} (hl : l.full = true) (hr : r.full = true) (s : Byte) :
    serialize (.internal l r) ≠ serialize (.wrapper s) := by
  intro h
  have := congrArg List.length h
  have := serialize_length_pos hl
  have := serialize_length_pos hr
  simp [Tree.wrapper, serialize] at *
  omega

/-! The scan of rule R98 -/

theorem scanTokens_internal (rest : List Byte) (need pos : Nat) (seen : List Byte) :
    scanTokens (markerInternal :: rest) (need + 1) pos seen =
      scanTokens rest (need + 2) (pos + 1) seen := by
  rw [scanTokens.eq_def]
  simp only [if_true]

theorem scanTokens_leaf (s : Byte) (rest : List Byte) (need pos : Nat) (seen : List Byte) :
    scanTokens (markerLeaf :: s :: rest) (need + 1) pos seen =
      if s ∈ seen then .error ⟨.dupSymbol, pos + 1⟩ else scanTokens rest need (pos + 2) (s :: seen) := by
  rw [scanTokens, if_neg markers_ne.symm, if_pos rfl]

/-- The parse of one subtree and the scan agree (rule R98): the scan fails as the parse does, and goes on after a
subtree as the parse does. -/
theorem scanTokens_parseSub {n : Nat} {toks : List Byte} (hn : toks.length < n) (pos : Nat)
    (seen : List Byte) (need : Nat) :
    scanTokens toks (need + 1) pos seen =
      match parseSub n false toks pos seen with
      | .error c => .error c
      | .ok p => scanTokens p.rest need p.pos p.seen := by
  induction n generalizing toks pos seen need with
  | zero => omega
  | succ n ih =>
    cases toks with
    | nil => simp [parseSub, scanTokens]
    | cons m rest =>
      simp only [List.length_cons] at hn
      by_cases h0 : m = markerInternal
      · subst h0
        rw [scanTokens_internal, parseSub.eq_def]
        simp only [ne_eq, not_true_eq_false, false_and, if_false, markers_ne]
        rw [ih (by omega)]
        cases hl : parseSub n false rest (pos + 1) seen with
        | error c => rfl
        | ok l =>
          have hlen : l.rest.length < n := by
            have := congrArg List.length (parseSub_ok hl).toks_eq
            rw [List.length_append] at this
            omega
          simp only
          rw [ih hlen]
          cases parseSub n false l.rest l.pos l.seen <;> rfl
      · by_cases h1 : m = markerLeaf
        · subst h1
          cases rest with
          | nil => simp [parseSub, scanTokens, markers_ne.symm]
          | cons s rest' =>
            rw [scanTokens_leaf, parseSub]
            simp only [ne_eq, not_true_eq_false, and_false, if_false, if_true, Bool.false_eq_true]
            split <;> rfl
        · rw [scanTokens.eq_def]
          simp [parseSub, h0, h1]

/-- A root that does not start with a leaf marker is parsed as any subtree is. -/
theorem parseSub_root {n : Nat} {toks : List Byte} (h : toks[0]? ≠ some markerLeaf) (pos : Nat)
    (seen : List Byte) : parseSub n true toks pos seen = parseSub n false toks pos seen := by
  cases n with
  | zero => rfl
  | succ n =>
    cases toks with
    | nil => rfl
    | cons m rest =>
      have hm : m ≠ markerLeaf := by simpa using h
      simp [parseSub, hm]

theorem parseSub_rootLeaf (n : Nat) (rest : List Byte) (pos : Nat) (seen : List Byte) :
    parseSub (n + 1) true (markerLeaf :: rest) pos seen = .error ⟨.rootLeaf, pos⟩ := by
  simp [parseSub]

/-! The tokens of a sequence (rules R61, R62) -/

theorem leafSymbols_internal (rest : List Byte) :
    leafSymbols (markerInternal :: rest) = leafSymbols rest := by
  rw [leafSymbols.eq_def]
  simp only [if_true]

theorem leafSymbols_leaf (s : Byte) (rest : List Byte) :
    leafSymbols (markerLeaf :: s :: rest) = (leafSymbols rest).map (fun l => s :: l) := by
  rw [leafSymbols, if_neg markers_ne.symm, if_pos rfl]

/-- Whole tokens followed by more: the symbols of the first part, then those of the second. -/
theorem leafSymbols_append {n : Nat} {a : List Byte} (hn : a.length ≤ n) {l : List Byte}
    (h : leafSymbols a = some l) (b : List Byte) :
    leafSymbols (a ++ b) = (leafSymbols b).map (fun r => l ++ r) := by
  induction n generalizing a l with
  | zero =>
    have : a = [] := List.length_eq_zero_iff.1 (Nat.le_zero.1 hn)
    subst this
    cases h
    simp
  | succ n ih =>
    cases a with
    | nil =>
      cases h
      simp
    | cons m rest =>
      simp only [List.length_cons] at hn
      by_cases h0 : m = markerInternal
      · subst h0
        rw [leafSymbols_internal] at h
        rw [List.cons_append, leafSymbols_internal, ih (by omega) h]
      · by_cases h1 : m = markerLeaf
        · subst h1
          cases rest with
          | nil => simp [leafSymbols, h0] at h
          | cons s rest' =>
            rw [leafSymbols_leaf, Option.map_eq_some_iff] at h
            obtain ⟨l', h', rfl⟩ := h
            simp only [List.length_cons] at hn
            rw [List.cons_append, List.cons_append, leafSymbols_leaf, ih (by omega) h', Option.map_map]
            rfl
        · rw [leafSymbols.eq_def] at h
          simp [h0, h1] at h

/-- What a failure of the scan says of the whole sequence, `pre` being the whole tokens read before and `syms` their
symbols (rules R93 to R97): the position it names, the byte there, and that the tokens before it are whole. -/
theorem scanTokens_error {n : Nat} {toks : List Byte} {need pos : Nat} {seen : List Byte} {c : Corrupt}
    (hn : toks.length ≤ n) (pre : List Byte) (hpre : pre.length = pos) {syms : List Byte}
    (hsyms : leafSymbols pre = some syms) (hseen : ∀ x ∈ seen, x ∈ syms)
    (h : scanTokens toks need pos seen = .error c) :
    match c.cause with
    | .badMarker => (∃ b, (pre ++ toks)[c.pos]? = some b ∧ b ≠ markerInternal ∧ b ≠ markerLeaf) ∧
        (leafSymbols ((pre ++ toks).take c.pos)).isSome = true
    | .truncLeaf => c.pos = (pre ++ toks).length ∧
        ∃ a, pre ++ toks = a ++ [markerLeaf] ∧ (leafSymbols a).isSome = true
    | .truncSubtree => c.pos = (pre ++ toks).length ∧ (leafSymbols (pre ++ toks)).isSome = true
    | .trailing => c.pos < (pre ++ toks).length
    | .rootLeaf => False
    | .dupSymbol => ∃ a s rest l, pre ++ toks = a ++ markerLeaf :: s :: rest ∧ c.pos = a.length + 1 ∧
        leafSymbols a = some l ∧ s ∈ l := by
  induction n generalizing toks need pos seen pre syms with
  | zero =>
    have : toks = [] := List.length_eq_zero_iff.1 (Nat.le_zero.1 hn)
    subst this
    cases need <;> simp only [scanTokens, reduceCtorEq, Except.error.injEq] at h
    subst h
    simp [hpre, hsyms]
  | succ n ih =>
    cases toks with
    | nil =>
      cases need <;> simp only [scanTokens, reduceCtorEq, Except.error.injEq] at h
      subst h
      simp [hpre, hsyms]
    | cons m rest =>
      cases need with
      | zero =>
        simp only [scanTokens, Except.error.injEq] at h
        subst h
        simp [hpre]
      | succ need =>
        simp only [List.length_cons] at hn
        by_cases h0 : m = markerInternal
        · subst h0
          rw [scanTokens_internal] at h
          have hs : leafSymbols (pre ++ [markerInternal]) = some syms := by
            rw [leafSymbols_append le_rfl hsyms, leafSymbols_internal]
            simp [leafSymbols]
          simpa using ih (by omega) (pre ++ [markerInternal]) (by simp [hpre]) hs hseen h
        · by_cases h1 : m = markerLeaf
          · subst h1
            cases rest with
            | nil =>
              simp only [scanTokens, markers_ne.symm, if_false, if_true, Except.error.injEq] at h
              subst h
              exact ⟨by simp [hpre], pre, rfl, by simp [hsyms]⟩
            | cons x rest' =>
              rw [scanTokens_leaf] at h
              split at h
              · rename_i hx
                cases h
                exact ⟨pre, x, rest', syms, rfl, by simp [hpre], hsyms, hseen x hx⟩
              · simp only [List.length_cons] at hn
                have hs : leafSymbols (pre ++ [markerLeaf, x]) = some (syms ++ [x]) := by
                  rw [leafSymbols_append le_rfl hsyms, leafSymbols_leaf]
                  simp [leafSymbols]
                have hseen' : ∀ y ∈ x :: seen, y ∈ syms ++ [x] := by
                  intro y hy
                  rcases List.mem_cons.1 hy with rfl | hy
                  · simp
                  · exact List.mem_append_left _ (hseen y hy)
                simpa using ih (by omega) (pre ++ [markerLeaf, x]) (by simp [hpre]) hs hseen' h
          · rw [scanTokens.eq_def] at h
            simp only [h0, h1, if_false, Except.error.injEq] at h
            subst h
            exact ⟨⟨m, by simp [← hpre], h0, h1⟩, by simp [← hpre, hsyms]⟩

end Sys2Proof.Machine
end

