-- ==== Sys2Proof/Laws/Walk.lean ====
section
/-! SUPPORT. The decoder's walk (rules R81 to R84): along one code, along a tail that reaches no leaf, over a
concatenation of codes, on a wrapper, and how long its output can be. -/

namespace Sys2Proof.Machine

/-- The walk along one code emits its symbol and starts again at the root, unless the output is full. -/
theorem walkBits_code (root : Tree) (cap : Nat) {cur : Tree} {p : BitString} {s : Byte}
    (hp : cur.follow p = .leaf s) (hne : p ≠ []) (bs : BitString) (k m since : Nat) :
    walkBits root cap (p ++ bs) k cur m since =
      if m = cap then ⟨[], .error (.capacity .capOut (k + p.length - 1))⟩
      else ⟨s :: (walkBits root cap bs (k + p.length) root (m + 1) 0).out,
        (walkBits root cap bs (k + p.length) root (m + 1) 0).stop⟩ := by
  induction p generalizing cur k since with
  | nil => exact absurd rfl hne
  | cons b p ih =>
    rw [Tree.follow_cons] at hp
    cases p with
    | nil =>
      rw [Tree.follow_empty] at hp
      simp [walkBits, hp]
    | cons c p =>
      rw [List.cons_append, walkBits]
      cases hc : cur.child b with
      | nil => rw [hc] at hp; simp at hp
      | leaf x => rw [hc] at hp; simp at hp
      | internal l r =>
        rw [hc] at hp
        simp only
        rw [ih hp (by simp)]
        simp only [List.length_cons, show k + 1 + (p.length + 1) = k + (p.length + 1 + 1) by omega]

/-- The walk along bits that lead to an internal node emits nothing and counts them (rule R83). -/
theorem walkBits_tail (root : Tree) (cap : Nat) {cur : Tree} {p : BitString} {l r : Tree}
    (hp : cur.follow p = .internal l r) (k m since : Nat) :
    walkBits root cap p k cur m since = ⟨[], .ok (since + p.length)⟩ := by
  induction p generalizing cur k since with
  | nil => rfl
  | cons b p ih =>
    rw [Tree.follow_cons] at hp
    rw [walkBits]
    cases hc : cur.child b with
    | nil => rw [hc] at hp; simp at hp
    | leaf x =>
      rw [hc] at hp
      cases p with
      | nil => simp at hp
      | cons c p => simp at hp
    | internal l' r' =>
      rw [hc] at hp
      simp only
      rw [ih hp]
      simp only [List.length_cons, show since + 1 + p.length = since + (p.length + 1) by omega]

/-- The walk over a concatenation of codes and a tail that reaches no leaf gives back the symbols, if they fit
(rules R81, R83, R85). `code` gives each symbol's path. -/
theorem walkBits_codes {root : Tree} {l r : Tree} (hroot : root = .internal l r) (cap : Nat)
    {code : Byte → BitString} {syms : List Byte} (hc : ∀ s ∈ syms, root.follow (code s) = .leaf s)
    {tail : BitString} {l' r' : Tree} (ht : root.follow tail = .internal l' r') (k : Nat) {m : Nat}
    (hm : m + syms.length ≤ cap) :
    walkBits root cap (syms.flatMap code ++ tail) k root m 0 = ⟨syms, .ok tail.length⟩ := by
  induction syms generalizing k m with
  | nil => simpa using walkBits_tail root cap ht k m 0
  | cons s syms ih =>
    have hs := hc s (by simp)
    have hne : code s ≠ [] := by
      intro e
      rw [e, hroot] at hs
      simp at hs
    simp only [List.length_cons] at hm
    rw [List.flatMap_cons, List.append_assoc, walkBits_code root cap hs hne, if_neg (by omega),
      ih (fun x hx => hc x (by simp [hx])) _ (by omega)]

/-- The walk over more codes than the output holds stops at the last bit of the first symbol that does not fit
(rule R81, `CAP_OUT`). -/
theorem walkBits_codes_full {root : Tree} {l r : Tree} (hroot : root = .internal l r) {cap : Nat}
    {code : Byte → BitString} {syms : List Byte} (hc : ∀ s ∈ syms, root.follow (code s) = .leaf s)
    (tail : BitString) (k : Nat) {m : Nat} (hm : m ≤ cap) (hmore : cap < m + syms.length) :
    walkBits root cap (syms.flatMap code ++ tail) k root m 0 =
      ⟨syms.take (cap - m),
        .error (.capacity .capOut
          (k + ((syms.take (cap - m + 1)).flatMap code).length - 1))⟩ := by
  induction syms generalizing k m with
  | nil => simp at hmore; omega
  | cons s syms ih =>
    have hs := hc s (by simp)
    have hne : code s ≠ [] := by
      intro e
      rw [e, hroot] at hs
      simp at hs
    simp only [List.length_cons] at hmore
    rw [List.flatMap_cons, List.append_assoc, walkBits_code root cap hs hne]
    by_cases he : m = cap
    · subst he
      simp
    · rw [if_neg he, ih (fun x hx => hc x (by simp [hx])) _ (by omega) (by omega)]
      have e : cap - m = cap - (m + 1) + 1 := by omega
      rw [e, List.take_succ_cons, List.take_succ_cons]
      simp only [List.flatMap_cons, List.length_append, Nat.add_assoc]

/-- How the walk ends, whatever the tree: the output is within its capacity, no longer than the bits read, and the
error is one of the two the rule names, at one of the bits. -/
theorem walkBits_bounds (root : Tree) (cap : Nat) (bs : BitString) (k : Nat) (cur : Tree) {m : Nat}
    (since : Nat) (hm : m ≤ cap) :
    m + (walkBits root cap bs k cur m since).out.length ≤ cap ∧
      match (walkBits root cap bs k cur m since).stop with
      | .ok n => (walkBits root cap bs k cur m since).out.length + n ≤ bs.length + since
      | .error e => ∃ j, k ≤ j ∧ j < k + bs.length ∧ (e = .badPath j ∨ e = .capacity .capOut j) := by
  induction bs generalizing k cur m since with
  | nil => simp [walkBits, hm]
  | cons b bs ih =>
    rw [walkBits]
    cases cur.child b with
    | nil => exact ⟨hm, k, le_rfl, by simp, .inl rfl⟩
    | leaf s =>
      simp only
      split
      · exact ⟨hm, k, le_rfl, by simp, .inr rfl⟩
      · rename_i hne
        obtain ⟨h1, h2⟩ := ih (k + 1) root (m := m + 1) 0 (by omega)
        refine ⟨by simp only [List.length_cons]; omega, ?_⟩
        revert h2
        simp only
        cases (walkBits root cap bs (k + 1) root (m + 1) 0).stop with
        | ok n =>
          simp only [List.length_cons]
          omega
        | error e =>
          rintro ⟨j, h3, h4, h5⟩
          exact ⟨j, by omega, by simp only [List.length_cons]; omega, h5⟩
    | internal l r =>
      simp only
      obtain ⟨h1, h2⟩ := ih (k + 1) (.internal l r) (m := m) (since + 1) hm
      refine ⟨h1, ?_⟩
      revert h2
      cases (walkBits root cap bs (k + 1) (.internal l r) m (since + 1)).stop with
      | ok n =>
        simp only [List.length_cons]
        omega
      | error e =>
        rintro ⟨j, h3, h4, h5⟩
        exact ⟨j, by omega, by simp only [List.length_cons]; omega, h5⟩

/-- In a full tree no bit descends into an absent child (rule R84). -/
theorem walkBits_full {l r : Tree} (hl : l.full = true) (hr : r.full = true) (cap : Nat) (bs : BitString)
    (k : Nat) {cl cr : Tree} (hcl : cl.full = true) (hcr : cr.full = true) (m since j : Nat) :
    (walkBits (.internal l r) cap bs k (.internal cl cr) m since).stop ≠ .error (.badPath j) := by
  induction bs generalizing k cl cr m since with
  | nil => simp [walkBits]
  | cons b bs ih =>
    have hchild : ((Tree.internal cl cr).child b).full = true := by cases b <;> assumption
    rw [walkBits]
    cases hc : (Tree.internal cl cr).child b with
    | nil => rw [hc] at hchild; cases hchild
    | leaf s =>
      simp only
      split
      · simp
      · exact ih (k + 1) hl hr (m + 1) 0
    | internal l' r' =>
      rw [hc, Tree.full, Bool.and_eq_true] at hchild
      exact ih (k + 1) hchild.1 hchild.2 m (since + 1)

@[simp] theorem Tree.child_wrapper_false (s : Byte) : (Tree.wrapper s).child false = .leaf s := rfl

@[simp] theorem Tree.child_wrapper_true (s : Byte) : (Tree.wrapper s).child true = .nil := rfl

/-- On a wrapper, 0 bits emit its symbol and the first 1 bit fails (rule R84). -/
theorem walkBits_wrapper_badPath (s : Byte) {cap : Nat} (j : Nat) (rest : BitString) (k : Nat) {m : Nat}
    (hm : m + j ≤ cap) :
    walkBits (.wrapper s) cap (List.replicate j false ++ true :: rest) k (.wrapper s) m 0 =
      ⟨List.replicate j s, .error (.badPath (k + j))⟩ := by
  induction j generalizing k m with
  | zero => simp [walkBits]
  | succ j ih =>
    rw [List.replicate_succ, List.cons_append, walkBits]
    simp only [Tree.child_wrapper_false]
    rw [if_neg (by omega), ih (k + 1) (by omega), List.replicate_succ]
    simp only [show k + 1 + j = k + (j + 1) by omega]

/-- On a wrapper a `BAD_PATH` is at a 1 bit, and every bit before it is 0 (rule R84). -/
theorem walkBits_wrapper_only (s : Byte) (cap : Nat) (bs : BitString) (k m : Nat) {j : Nat}
    (h : (walkBits (.wrapper s) cap bs k (.wrapper s) m 0).stop = .error (.badPath j)) :
    ∃ i rest, j = k + i ∧ bs = List.replicate i false ++ true :: rest := by
  induction bs generalizing k m with
  | nil => simp [walkBits] at h
  | cons b bs ih =>
    cases b with
    | true =>
      have hj : k = j := by simpa [walkBits] using h
      exact ⟨0, bs, by omega, by simp⟩
    | false =>
      rw [walkBits] at h
      simp only [Tree.child_wrapper_false] at h
      split at h
      · simp at h
      · obtain ⟨i, rest, h1, h2⟩ := ih _ _ h
        exact ⟨i + 1, rest, by omega, by simp [h2, List.replicate_succ]⟩

end Sys2Proof.Machine
end

