-- ==== Sys2Proof/Laws/Exec.lean ====
section
/-! SUPPORT. What each command's meaning answers (rules R76, R81, R89, R100, R101): the ways `DECODE` and
`DESERIALIZE` end, and what every command leaves in the status fields (rule R59). -/

namespace Sys2Proof.Machine

/-- The ways `DECODE` ends (rule R81). -/
theorem execDecode_cases (s : State) :
    (Config.tokCap < s.tokLen.toNat ∧ execDecode s = .next (s.decodeFail (.capacity .capTok 0))) ∨
    (s.tokLen.toNat ≤ Config.tokCap ∧ s.cfg.bitCap < s.bitLen.toNat ∧
      execDecode s = .next (s.decodeFail (.capacity .capBit 0))) ∨
    (s.tokLen.toNat ≤ Config.tokCap ∧ s.bitLen.toNat ≤ s.cfg.bitCap ∧ s.tokLen ≠ 0 ∧
      ∃ c, deserialize s.tokBytes = .error c ∧
        execDecode s = .next (State.decodeFail { s with root := .nil } (.corruptTree c))) ∨
    (∃ root, s.decodesWith root ∧ execDecode s = .next (decodeHeld { s with root := root })) := by
  unfold execDecode
  by_cases h1 : s.tokLen.toNat > Config.tokCap
  · exact .inl ⟨h1, by rw [if_pos h1]⟩
  · right
    rw [if_neg h1]
    by_cases h2 : s.bitLen.toNat > s.cfg.bitCap
    · exact .inl ⟨by omega, h2, by rw [if_pos h2]⟩
    · right
      rw [if_neg h2]
      by_cases h3 : s.tokLen = 0
      · right
        rw [if_pos h3]
        exact ⟨s.root, ⟨by omega, by omega, .inl ⟨h3, rfl⟩⟩, rfl⟩
      · rw [if_neg h3]
        cases hd : deserialize s.tokBytes with
        | error c => exact .inl ⟨by omega, by omega, h3, c, rfl, rfl⟩
        | ok r => exact .inr ⟨r, ⟨by omega, by omega, .inr ⟨h3, hd⟩⟩, rfl⟩

/-- `DECODE` past its checks and its token step (rule R81). -/
theorem execDecode_of_decodesWith {s : State} {root : Tree} (h : s.decodesWith root) :
    execDecode s = .next (decodeHeld { s with root := root }) := by
  obtain ⟨h1, h2, h3⟩ := h
  unfold execDecode
  rw [if_neg (by omega), if_neg (by omega)]
  rcases h3 with ⟨h3, rfl⟩ | ⟨h3, h4⟩
  · rw [if_pos h3]
  · rw [if_neg h3, h4]

theorem State.bits_root (s : State) (root : Tree) : State.bits { s with root := root } = s.bits := by
  have h : State.bitRead { s with root := root } = s.bitRead :=
    State.bitRead_congr (State.readByte_congr_buffer rfl rfl rfl rfl)
  unfold State.bits
  rw [h]

/-- `DECODE` with a held tree (rule R81), by how its walk ends. -/
theorem decodeHeld_walk {s : State} {root : Tree} (h : root ≠ .nil) :
    decodeHeld { s with root := root } =
      match (s.decodeWalk root).stop with
      | .error r =>
        State.decodeFail (State.writeBytes { s with root := root } .outBuf 0 (s.decodeWalk root).out) r
      | .ok since =>
        State.complete
          { State.writeBytes { s with root := root } .outBuf 0 (s.decodeWalk root).out with
            outLen := Word.ofNat (s.decodeWalk root).out.length, trailBits := Word.ofNat since } .ok := by
  unfold decodeHeld
  rw [if_neg h]
  simp only [State.bits_root]
  rfl

/-- The tree a successful token step loads has a shape of rule R30 (rules R90 to R96). -/
theorem deserialize_legal {toks : List Byte} {t : Tree} (h : deserialize toks = .ok t) :
    t.legal = true := by
  by_cases h0 : toks = []
  · subst h0
    cases h
    rfl
  · by_cases hw : ∃ s, toks = serialize (.wrapper s)
    · obtain ⟨s, rfl⟩ := hw
      rw [deserialize_wrapper] at h
      cases h
      rfl
    · rw [deserialize_eq_parseTree h0 (fun s e => hw ⟨s, e⟩)] at h
      obtain ⟨-, hf, hn, l, r, rfl⟩ := parseTree_ok h
      rw [Tree.full, Bool.and_eq_true] at hf
      exact Tree.legal_internal hf.1 hf.2 hn

theorem State.decodesWith_legal {s : State} (hs : s.root.legal = true) {root : Tree}
    (h : s.decodesWith root) : root.legal = true := by
  obtain ⟨-, -, ⟨-, rfl⟩ | ⟨-, h⟩⟩ := h
  · exact hs
  · exact deserialize_legal h

/-- The ways `DESERIALIZE` ends (rule R100). -/
theorem execDeserialize_cases (s : State) :
    (Config.tokCap < s.tokLen.toNat ∧
      execDeserialize s = .next (s.complete (.capacity .capTok 0))) ∨
    (s.tokLen.toNat ≤ Config.tokCap ∧ ∃ c, deserialize s.tokBytes = .error c ∧
      execDeserialize s = .next (State.complete { s with root := .nil } (.corruptTree c))) ∨
    (s.tokLen.toNat ≤ Config.tokCap ∧ ∃ r, deserialize s.tokBytes = .ok r ∧
      execDeserialize s = .next (State.complete { s with root := r } .ok)) := by
  unfold execDeserialize
  by_cases h1 : s.tokLen.toNat > Config.tokCap
  · exact .inl ⟨h1, by rw [if_pos h1]⟩
  · right
    rw [if_neg h1]
    cases hd : deserialize s.tokBytes with
    | error c => exact .inl ⟨by omega, c, rfl, rfl⟩
    | ok r => exact .inr ⟨by omega, r, rfl, rfl⟩

/-- The path of a symbol's code leads to its leaf (rules R63, R74). -/
theorem follow_codeOf {root : Tree} (hl : root.legal = true) {x : Byte} (hx : x ∈ root.leaves) :
    root.follow (codeOf (genCodes root) x) = .leaf x := by
  obtain ⟨p, hp⟩ := Option.isSome_iff_exists.1 ((entry_genCodes_isSome (Tree.legal_nodup hl) x).2 hx)
  rw [codeOf_of_entry hp]
  exact (entry_genCodes (Tree.legal_nodup hl) x p).1 hp

@[simp] theorem State.bits_length (s : State) : s.bits.length = s.bitLen.toNat := by simp [State.bits]

theorem State.bits_getElem? (s : State) {k : Nat} (h : k < s.bitLen.toNat) :
    s.bits[k]? = some (s.bitRead k) := by simp [State.bits, h]

/-- What a command leaves in `OUT_BUF` after writing `out` from offset 0. -/
theorem readByte_outBuf_written (s : State) (root : Tree) {out : List Byte} {t : State}
    (ho : t.outBuf = (State.writeBytes { s with root := root } .outBuf 0 out).outBuf)
    (hc : t.cfg = s.cfg) (he : t.epoch = s.epoch) (a : Nat) :
    t.readByte .outBuf a =
      if a < out.length ∧ a < s.cfg.outCap.toNat then out.getD a 0 else s.readByte .outBuf a := by
  have h1 : t.readByte .outBuf a =
      (State.writeBytes { s with root := root } .outBuf 0 out).readByte .outBuf a :=
    congrFun (State.readByte_congr_buffer rfl (by simp [hc]) (by simp [he])
      (by simpa [State.mem] using ho)) a
  have h2 : State.readByte { s with root := root } .outBuf a = s.readByte .outBuf a :=
    congrFun (State.readByte_congr_buffer rfl rfl rfl rfl) a
  rw [h1, State.readByte_writeBytes _ rfl, h2]
  by_cases h : a < out.length ∧ a < s.cfg.outCap.toNat
  · rw [if_pos h, if_pos ⟨rfl, h.2, by omega, by omega⟩, Nat.sub_zero]
  · rw [if_neg h, if_neg (fun x => h ⟨by have := x.2.2.2; omega, x.2.1⟩)]

/-- `DECODE` when its walk ends with the bits (rule R81): all the state it leaves. -/
theorem execDecode_walk_ok {s : State} {root : Tree} {out : List Byte} {n : Nat}
    (h : s.decodesWith root) (hn : root ≠ .nil) (hw : s.decodeWalk root = ⟨out, .ok n⟩) :
    ∃ t, execDecode s = .next t ∧
      t = { s with
        root := root
        outBuf := t.outBuf
        outLen := Word.ofNat out.length
        trailBits := Word.ofNat n
        pending := none
        done := true
        errCode := 0
        errDetail := 0
        errPos := 0 } ∧
      ∀ a, t.readByte .outBuf a =
        if a < out.length ∧ a < s.cfg.outCap.toNat then out.getD a 0 else s.readByte .outBuf a := by
  refine ⟨_, (execDecode_of_decodesWith h).trans
    (congrArg _ ((decodeHeld_walk hn).trans (by rw [hw]))), ?_, ?_⟩
  · simp only
    rw [State.writeBytes_eq_setMem]
    rfl
  · apply readByte_outBuf_written s root <;> simp

/-- `DECODE` when its walk ends with an error (rules R81, R84): all the state it leaves. -/
theorem execDecode_walk_error {s : State} {root : Tree} {out : List Byte} {r : CmdResult}
    (h : s.decodesWith root) (hn : root ≠ .nil) (hw : s.decodeWalk root = ⟨out, .error r⟩) :
    ∃ t, execDecode s = .next t ∧
      t = { s with
        root := root
        outBuf := t.outBuf
        outLen := 0
        trailBits := 0
        pending := none
        done := true
        errCode := r.code.bits
        errDetail := r.detail
        errPos := Word.ofNat r.pos } ∧
      ∀ a, t.readByte .outBuf a =
        if a < out.length ∧ a < s.cfg.outCap.toNat then out.getD a 0 else s.readByte .outBuf a := by
  refine ⟨_, (execDecode_of_decodesWith h).trans
    (congrArg _ ((decodeHeld_walk hn).trans (by rw [hw]))), ?_, ?_⟩
  · simp only
    rw [State.writeBytes_eq_setMem]
    rfl
  · apply readByte_outBuf_written s root <;> simp

/-- Every command completes, without the input side or the outside world changing (rules R58, R59, R127). -/
theorem exec_completes (i : Instr) (s : State) :
    ∃ t, exec i s = .next t ∧ t.pending = none ∧ t.done = true ∧ t.viol = s.viol ∧ t.cfg = s.cfg ∧
      t.inLen = s.inLen ∧ t.inBuf = s.inBuf ∧ t.epoch = s.epoch ∧ t.draws = s.draws ∧
      t.host = s.host ∧ t.sched = s.sched ∧ t.reads = s.reads := by
  have hin : ∀ (s : State) sp vs, sp ≠ .inBuf → (s.writeBytes sp 0 vs).inBuf = s.inBuf :=
    fun s sp vs h => State.writeBytes_mem_ne (sp := sp) (sp' := .inBuf) s 0 vs h.symm
  cases i with
  | encode =>
    rcases execEncode_cases s with ⟨-, h⟩ | ⟨-, i, -, -, -, -, h⟩ | ⟨-, -, h⟩ <;>
      exact ⟨_, h, by simp [hin]⟩
  | serialize => exact ⟨_, rfl, by simp [hin]⟩
  | decode =>
    rcases execDecode_cases s with ⟨-, h⟩ | ⟨-, -, h⟩ | ⟨-, -, -, c, -, h⟩ | ⟨root, hr, h⟩
    · exact ⟨_, h, by simp⟩
    · exact ⟨_, h, by simp⟩
    · exact ⟨_, h, by simp⟩
    · refine ⟨_, h, ?_⟩
      by_cases hn : root = .nil
      · subst hn
        simp [decodeHeld]
      · rw [decodeHeld_walk hn]
        split <;> simp [hin]
  | deserialize =>
    rcases execDeserialize_cases s with ⟨-, h⟩ | ⟨-, c, -, h⟩ | ⟨-, r, -, h⟩ <;>
      exact ⟨_, h, by simp⟩
  | genCodes => exact ⟨_, rfl, by simp⟩
  | clear => exact ⟨_, rfl, by simp⟩

end Sys2Proof.Machine
end

