-- ==== Sys2Proof/Laws/Host.lean ====
section
/-! SUPPORT. The status word and the host's accesses (rules R17, R18, R37, R42, R44): the fields of `STATUS`, what a
read and a write do, and what each agent's turn answers. -/

namespace Sys2Proof.Machine

/-- The fields of the layout of `STATUS` (rule R18). -/
theorem statusWord_fields : ∀ (busy done err viol : Bool) (code : BitVec 4) (tree : Bool),
    let w := statusWord busy done err viol code tree
    w.getLsbD 0 = busy ∧ w.getLsbD 1 = done ∧ w.getLsbD 2 = err ∧ w.getLsbD 3 = viol ∧
      w.extractLsb' 4 4 = 0 ∧ w.extractLsb' 8 4 = code ∧ w.extractLsb' 12 4 = 0 ∧
      w.getLsbD 16 = tree ∧ w.extractLsb' 17 15 = 0 := by
  decide +kernel

/-! Registers and offsets -/

@[simp] theorem Reg.at?_offset (r : Reg) : Reg.at? r.offset = some r := by cases r <;> rfl

/-- An offset of `REG` is that of one register, or of none (rule R16). -/
theorem Reg.at?_cases (off : Nat) :
    (∃ r, off = Reg.offset r ∧ Reg.at? off = some r) ∨
      ((∀ r, off ≠ Reg.offset r) ∧ Reg.at? off = none) := by
  by_cases h : ∃ r, off = Reg.offset r
  · obtain ⟨r, rfl⟩ := h
    exact .inl ⟨r, rfl, Reg.at?_offset r⟩
  · right
    have hn : ∀ r, off ≠ Reg.offset r := fun r e => h ⟨r, e⟩
    refine ⟨hn, ?_⟩
    unfold Reg.at?
    split
    · exact absurd rfl (hn .cmd)
    · exact absurd rfl (hn .status)
    · exact absurd rfl (hn .errDetail)
    · exact absurd rfl (hn .errPos)
    · exact absurd rfl (hn .inLen)
    · exact absurd rfl (hn .bitLen)
    · exact absurd rfl (hn .tokLen)
    · exact absurd rfl (hn .outLen)
    · exact absurd rfl (hn .trailBits)
    · exact absurd rfl (hn .nsym)
    · exact absurd rfl (hn .capIn)
    · exact absurd rfl (hn .capBit)
    · exact absurd rfl (hn .capOut)
    · exact absurd rfl (hn .capTok)
    · rfl

/-- Every register lies within the 64 bytes of `REG` (rule R36). -/
theorem Reg.offset_lt (r : Reg) : r.offset < 64 := by cases r <;> decide

/-! Reads -/

theorem State.hostRead_busy {s : State} (h : s.pending.isSome = true) (sp : Space) (off : Nat) :
    s.hostRead sp off = (s.busyReadValue sp off,
      State.observe { s with draws := s.draws + 1 } sp off (s.busyReadValue sp off)) := by
  unfold State.hostRead State.busy
  rw [if_pos h]

theorem State.hostRead_idle {s : State} (h : s.pending = none) (sp : Space) (off : Nat) :
    s.hostRead sp off = (s.idleRead sp off, s.observe sp off (s.idleRead sp off)) := by
  unfold State.hostRead State.busy
  rw [if_neg (by simp [h])]

/-- A value read depends on none of the host's and the schedule's fields. -/
theorem State.idleRead_congr {s t : State} (h : t = { s with host := t.host, sched := t.sched, reads := t.reads })
    (sp : Space) (off : Nat) : t.idleRead sp off = s.idleRead sp off := by
  rw [h]
  cases sp <;> rfl

/-! Writes -/

theorem State.hostWrite_busy {s : State} (h : s.pending.isSome = true) (sp : Space) (off : Nat)
    (v : Word) : s.hostWrite sp off v = { s with viol := true } := by
  unfold State.hostWrite State.busy
  rw [if_pos h]

theorem State.hostWrite_reg {s : State} (h : s.pending = none) (off : Nat) (v : Word) :
    s.hostWrite .reg off v = s.regWrite off v := by
  unfold State.hostWrite State.busy
  rw [if_neg (by simp [h])]

theorem State.hostWrite_byte {s : State} (h : s.pending = none) {sp : Space} (hs : sp ≠ .reg)
    (off : Nat) (v : Word) : s.hostWrite sp off v = s.writeByte sp off (v.setWidth 8) := by
  unfold State.hostWrite State.busy
  rw [if_neg (by simp [h])]
  cases sp <;> first | rfl | exact absurd rfl hs

/-! Turns -/

theorem step_host_access {s : State} {a : Access} {rest : List HostMove} (ht : s.turn = .host)
    (hh : s.host = .access a :: rest) (ha : a.admitted = true) :
    step s = .next ((s.spendTurn.withHost rest).hostAccess a) := by
  unfold step takeTurn
  rw [ht]
  simp only [hostTurn, State.spendTurn_host, hh, ha, if_true]

theorem step_host_refused {s : State} {a : Access} {rest : List HostMove} (ht : s.turn = .host)
    (hh : s.host = .access a :: rest) (ha : a.admitted = false) :
    step s = .refused (.accessNotAdmitted a) := by
  unfold step takeTurn
  rw [ht]
  simp only [hostTurn, State.spendTurn_host, hh, ha, Bool.false_eq_true, if_false]

theorem step_wait {s : State} {rest : List HostMove} (ht : s.turn = .host) (hh : s.host = .wait :: rest) :
    step s =
      if (s.spendTurn.hostRead .reg 0x04).1.getLsbD 0 then .next (s.spendTurn.hostRead .reg 0x04).2
      else .next ((s.spendTurn.hostRead .reg 0x04).2.withHost rest) := by
  unfold step takeTurn
  rw [ht]
  simp only [hostTurn, State.spendTurn_host, hh]
  rfl

/-- A poll while a command is pending reads `BUSY` 1 and stays (rules R44, R65). -/
theorem step_wait_busy {s : State} {rest : List HostMove} (ht : s.turn = .host)
    (hh : s.host = .wait :: rest) (hp : s.pending.isSome = true) :
    step s = .next (s.spendTurn.hostRead .reg 0x04).2 := by
  rw [step_wait ht hh, State.hostRead_busy (by simpa using hp), if_pos]
  exact (statusWord_fields _ _ _ _ _ _).1

/-- A poll while no command is pending reads `BUSY` 0 and ends the wait (rules R18, R65). -/
theorem step_wait_idle {s : State} {rest : List HostMove} (ht : s.turn = .host)
    (hh : s.host = .wait :: rest) (hp : s.pending = none) :
    step s = .next ((s.spendTurn.hostRead .reg 0x04).2.withHost rest) := by
  rw [step_wait ht hh, State.hostRead_idle (by simpa using hp), if_neg]
  have h := (statusWord_fields s.spendTurn.busy s.spendTurn.done s.spendTurn.err s.spendTurn.viol
    s.spendTurn.errCode s.spendTurn.treeValid).1
  simp only [State.idleRead, State.regRead, Reg.at?, State.regValue, State.status]
  rw [h]
  simp [State.busy, hp]

theorem step_core {s : State} {w : Word} (ht : s.turn = .core) (hp : s.pending = some w) :
    step s = performWord w s.spendTurn := by
  unfold step takeTurn
  rw [ht]
  simp only [coreTurn, State.fetch, State.spendTurn_pending, hp]

theorem step_core_none {s : State} (ht : s.turn = .core) (hp : s.pending = none) :
    step s = .next s.spendTurn := by
  unfold step takeTurn
  rw [ht]
  simp only [coreTurn, State.fetch, State.spendTurn_pending, hp]

theorem step_reset {s : State} (ht : s.turn = .reset) : step s = .next s.spendTurn.resetBlock := by
  unfold step takeTurn
  rw [ht]

end Sys2Proof.Machine
end

