-- ==== Sys2Proof/Laws/Invariant.lean ====
section
/-! SUPPORT. The pieces of `State.Inv`: what may change in a state in order so that it stays in order. -/

namespace Sys2Proof.Machine

/-- The fields the invariant does not speak of may take any value. -/
theorem State.Inv.of_unconstrained {s t : State} (h : s.Inv)
    (e : t = { s with
      viol := t.viol, inLen := t.inLen, bitLen := t.bitLen, tokLen := t.tokLen, freq := t.freq
      epoch := t.epoch, draws := t.draws, host := t.host, sched := t.sched, reads := t.reads }) :
    t.Inv := by
  rw [e]
  refine ⟨h.config, h.root, h.table, fun sp => ?_, h.busy, h.notDone, h.report, h.outLen, h.trailBits⟩
  have := h.buffers sp
  cases sp <;> exact this

/-- Completing a command leaves a report of rules R104 and R105. -/
theorem State.Inv.complete {s : State} (h : s.Inv) (r : CmdResult) : (s.complete r).Inv := by
  refine ⟨h.config, h.root, h.table, fun sp => ?_, by simp, by simp, fun _ => ?_, h.outLen, h.trailBits⟩
  · have := h.buffers sp
    cases sp <;> exact this
  · cases r with
    | ok => exact .inl ⟨rfl, rfl, rfl⟩
    | illegalCmd => exact .inr (.inl ⟨rfl, rfl, rfl⟩)
    | capacity c p =>
      refine .inr (.inr (.inl ⟨rfl, ?_⟩))
      cases c <;> simp [CmdResult.detail, CapCause.bits]
    | corruptTree c =>
      refine .inr (.inr (.inr (.inl ⟨rfl, ?_⟩)))
      obtain ⟨c, p⟩ := c
      cases c <;> simp [CmdResult.detail, CorruptCause.bits]
    | badPath k => exact .inr (.inr (.inr (.inr ⟨rfl, rfl⟩)))

/-- Writing bytes keeps every buffer canonical and within its size. -/
theorem State.Inv.writeBytes {s : State} (h : s.Inv) (sp : Space) (a : Nat) (vs : List Byte) :
    (s.writeBytes sp a vs).Inv where
  config := by simpa using h.config
  root := by simpa using h.root
  table := by simpa using h.table
  buffers sp' := State.writeBytes_bufferOk (h.buffers sp') _ _ _
  busy := by simpa using h.busy
  notDone := by simpa using h.notDone
  report := by simpa using h.report
  outLen := by simpa using h.outLen
  trailBits := by simpa using h.trailBits

/-- A new tree the block can hold, and a table of such a tree. -/
theorem State.Inv.tables {s : State} (h : s.Inv) {root : Tree} {ct : CodeTable}
    (hr : root.legal = true) (hct : ∃ t : Tree, t.legal = true ∧ ct = genCodes t) :
    State.Inv { s with root := root, ct := ct } := by
  refine ⟨h.config, hr, hct, fun sp => ?_, h.busy, h.notDone, h.report, h.outLen, h.trailBits⟩
  have := h.buffers sp
  cases sp <;> exact this

/-- New values of the two lengths `DECODE` writes, within their bounds. -/
theorem State.Inv.lengths {s : State} (h : s.Inv) {a b : Word} (ha : a.toNat ≤ s.cfg.outCap.toNat)
    (hb : b.toNat ≤ s.cfg.bitCap) : State.Inv { s with outLen := a, trailBits := b } := by
  refine ⟨h.config, h.root, h.table, fun sp => ?_, h.busy, h.notDone, h.report, ha, hb⟩
  have := h.buffers sp
  cases sp <;> exact this

end Sys2Proof.Machine
end

