-- ==== Sys2Proof/Laws/Word.lean ====
section
/-! SUPPORT. The two fields of a command word (rule R54): a word is its reserved field followed by its opcode, and the
opcode map and the encoder agree. -/

namespace Sys2Proof

theorem word_fields (w : Word) : w = reservedField w ++ opField w := by
  unfold reservedField opField
  ext j hj
  simp only [BitVec.getElem_eq_testBit_toNat, BitVec.toNat_append, BitVec.extractLsb'_toNat,
    Nat.shiftRight_zero]
  rw [show w.toNat >>> 4 % 2 ^ 28 = w.toNat >>> 4 by
    rw [Nat.shiftRight_eq_div_pow]; have := w.isLt; omega]
  rw [show (w.toNat >>> 4) <<< 4 ||| w.toNat % 2 ^ 4 = w.toNat by
    rw [← Nat.shiftLeft_add_eq_or_of_lt (Nat.mod_lt _ (by decide)), Nat.shiftRight_eq_div_pow,
      Nat.shiftLeft_eq]
    omega]

theorem decodeOp_some : ∀ {o : BitVec 4} {i : Instr}, decodeOp o = some i → o = opcode i := by
  have : ∀ (o : BitVec 4) (i : Instr), decodeOp o = some i → o = opcode i := by
    intro o i
    revert o
    cases i <;> decide
  exact @fun o i => this o i

theorem decode_ok_iff {w : Word} {i : Instr} :
    decode w = .ok i ↔ reservedField w = 0 ∧ decodeOp (opField w) = some i := by
  unfold decode
  by_cases h : reservedField w = 0
  · rw [if_neg (by simpa using h)]
    cases hd : decodeOp (opField w) <;> simp [h]
  · rw [if_pos h]
    exact ⟨(fun e => by cases e), fun e => absurd e.1 h⟩

end Sys2Proof
end

