-- ==== Sys2Proof/Laws/PerInstr.lean ====
section
/-! SUPPORT. What holds of every command as syntax, one lemma per command (rules R54, R55): its word is one of the
opcode map, with the reserved bits 0, and both decoders read it back. -/

namespace Sys2Proof

/-- A command is well formed, its word has the reserved field 0 and its own opcode in `OP`, and the decoders read it. -/
def Laws.Encoding.Statement (i : Instr) : Prop :=
  i.wf = true ∧ reservedField (encode i) = 0 ∧ opField (encode i) = opcode i ∧
    decodeTableWord 32 (encode i).toNat = some i

theorem Laws.Encoding.encode : Laws.Encoding.Statement .encode := by
  unfold Laws.Encoding.Statement; decide

theorem Laws.Encoding.serialize : Laws.Encoding.Statement .serialize := by
  unfold Laws.Encoding.Statement; decide

theorem Laws.Encoding.decode : Laws.Encoding.Statement .decode := by
  unfold Laws.Encoding.Statement; decide

theorem Laws.Encoding.deserialize : Laws.Encoding.Statement .deserialize := by
  unfold Laws.Encoding.Statement; decide

theorem Laws.Encoding.genCodes : Laws.Encoding.Statement .genCodes := by
  unfold Laws.Encoding.Statement; decide

theorem Laws.Encoding.clear : Laws.Encoding.Statement .clear := by
  unfold Laws.Encoding.Statement; decide

end Sys2Proof
end

