-- ==== Sys2Proof/Tests/Slice0.lean ====
section
/-! SUPPORT. The model's own tests. Expected results come from the vectors of 95_test_vectors.md (named in each
docstring) or from the encodings of 30_encoding.md, never from a run of the model. The last part gives, for every
obligation with hypotheses, concrete values that meet them all. -/

namespace Sys2Proof.Machine

/-! Helpers -/

/-- A buffer holding the given bytes from offset 0. -/
def Tests.cells (bs : List Byte) : Memory := bs.zipIdx.map (fun p => (p.2, p.1))

/-- After reset, with `IN_BUF` and `IN_LEN` holding an input. -/
def Tests.withIn (bs : List Byte) : State :=
  { State.reset with inBuf := Tests.cells bs, inLen := Word.ofNat bs.length }

/-- After reset, with `TOK_BUF` and `TOK_LEN` holding a token sequence. -/
def Tests.withTok (bs : List Byte) : State :=
  { State.reset with tokBuf := Tests.cells bs, tokLen := Word.ofNat bs.length }

/-- After reset, with a tree held and `n` bits in `BIT_BUF`. -/
def Tests.withBits (root : Tree) (bs : List Byte) (n : Nat) : State :=
  { State.reset with root := root, bitBuf := Tests.cells bs, bitLen := Word.ofNat n }

/-- After reset, with the host's next move given. -/
def Tests.withMove (a : Access) : State := { State.reset with host := [.access a] }

/-- After reset, with a command latched and the host's next move given, the next turn the host's. -/
def Tests.busyMove (a : Access) : State :=
  { State.reset with pending := some 1, sched := [.host], host := [.access a] }

/-- The outcome is a next state with a property. -/
def Tests.after (o : Host.Outcome State Fault Refusal) (p : State → Bool) : Bool :=
  match o with
  | .next t => p t
  | .fault _ => false
  | .refused _ => false

/-- `STATUS`, `ERR_DETAIL` and `ERR_POS`. -/
def Tests.report (t : State) : Nat × Nat × Nat := (t.status.toNat, t.errDetail.toNat, t.errPos.toNat)

/-- The tree of "abracadabra", T5 of section 2.4. -/
def Tests.t5 : Tree :=
  .internal (.leaf 0x61)
    (.internal (.internal (.leaf 0x63) (.leaf 0x64)) (.internal (.leaf 0x62) (.leaf 0x72)))

/-- The configuration of V-EN-17: `BIT_BUF_BYTES = 1`. -/
def Tests.oneByte : Config := { Config.test with bitBufBytes := 1 }

open Tests

/-! Decoding: the six words written out from R54 and R55, and words that R60 calls illegal -/

/-- R55: reserved bits 31:4 zero, then `OP` 0001. -/
theorem test_decode_encode : decode 0b0000000000000000000000000000_0001#32 = .ok .encode := by decide

/-- R55: `OP` 0010. -/
theorem test_decode_serialize : decode 0b0000000000000000000000000000_0010#32 = .ok .serialize := by decide

/-- R55: `OP` 0011. -/
theorem test_decode_decode : decode 0b0000000000000000000000000000_0011#32 = .ok .decode := by decide

/-- R55: `OP` 0100. -/
theorem test_decode_deserialize : decode 0b0000000000000000000000000000_0100#32 = .ok .deserialize := by
  decide

/-- R55: `OP` 0101. -/
theorem test_decode_genCodes : decode 0b0000000000000000000000000000_0101#32 = .ok .genCodes := by decide

/-- R55: `OP` 0110. -/
theorem test_decode_clear : decode 0b0000000000000000000000000000_0110#32 = .ok .clear := by decide

/-- R60, R102: 0x0, 0x7 and 0xF are reserved opcodes; 0x11 and 0x80000001 have a reserved bit set. -/
theorem test_decode_illegal :
    decode 0 = .error .reservedOp ∧ decode 0x7 = .error .reservedOp ∧ decode 0xF = .error .reservedOp ∧
      decode 0x11 = .error .reservedBits ∧ decode 0x80000001 = .error .reservedBits := by decide

/-- The placed word is performed by the very next step. -/
theorem test_withFetchWord :
    after (step (State.reset.withFetchWord 32 0x6)) (fun t => t.status == 0x00000002) = true := by decide

/-! WellFormed smoke: an ill-formed term for each check -/

/-- R41: `REG` takes no 1-byte access. -/
theorem test_wf_reg_byte : (HostMove.access (.write .reg 0x10 1 0)).wf = false := by decide

/-- R41: `REG` takes no access at an offset that is not a multiple of 4. -/
theorem test_wf_reg_unaligned : (HostMove.access (.read .reg 0x12 4)).wf = false := by decide

/-- R41: the other spaces take no 32-bit access. -/
theorem test_wf_buffer_word : (HostMove.access (.write .inBuf 0 4 0)).wf = false := by decide

/-- R41: nor a 2-byte one. -/
theorem test_wf_ctab_half : (HostMove.access (.read .ctab 0 2)).wf = false := by decide

/-- R5: every capacity is at least 1. -/
theorem test_wf_config :
    ({ Config.test with inCap := 0 } : Config).wf = false ∧
      ({ Config.test with bitBufBytes := 0 } : Config).wf = false ∧
      ({ Config.test with outCap := 0 } : Config).wf = false ∧ Config.test.wf = true := by decide

/-- The ill-formed access is refused by name when the host issues it (R41, U12). -/
theorem test_step_refuses_ill_formed :
    (match step (withMove (.read .reg 0x12 4)) with
      | .refused (.accessNotAdmitted (.read .reg 0x12 4)) => true
      | _ => false) = true := by decide

/-! ENCODE -/

/-- V-EN-1: "aaaab" gives 11110, `BIT_LEN` 5, `BIT_BUF[0]` F0 and the tree I(b, a). -/
theorem test_encode_aaaab :
    after (exec .encode (withIn [0x61, 0x61, 0x61, 0x61, 0x62])) (fun t =>
      t.status == 0x00010002 && t.bitLen == 5 && t.bitBuf == [(0, 0xF0)] &&
        t.root == .internal (.leaf 0x62) (.leaf 0x61)) = true := by decide +kernel

/-- V-EN-17: with `BIT_CAP` 8, "abracadabra" passes it at byte 4, and the new table is kept. -/
theorem test_encode_capBit :
    after (exec .encode
      { withIn [0x61, 0x62, 0x72, 0x61, 0x63, 0x61, 0x64, 0x61, 0x62, 0x72, 0x61] with cfg := oneByte })
      (fun t => report t == (0x00010206, 2, 4) && t.bitLen == 0 && t.bitBuf == [] && t.root == t5 &&
        t.nsym == 5) = true := by decide +kernel

/-! SERIALIZE -/

/-- V-SE-6: T5's 14 tokens. -/
theorem test_serialize_t5 :
    after (exec .serialize { State.reset with root := t5 }) (fun t =>
      t.tokLen == 14 && t.tokBuf ==
        cells [0x30, 0x31, 0x61, 0x30, 0x30, 0x31, 0x63, 0x31, 0x64, 0x30, 0x31, 0x62, 0x31, 0x72]) =
      true := by decide

/-- V-SE-2: the wrapper's 3 bytes; byte 3 keeps what it held. -/
theorem test_serialize_wrapper :
    after (exec .serialize { State.reset with root := .wrapper 0x61, tokBuf := [(3, 0x77)] }) (fun t =>
      t.tokLen == 3 && t.tokBuf == [(0, 0x30), (1, 0x31), (2, 0x61), (3, 0x77)]) = true := by decide

/-! DECODE -/

/-- V-DE-1: T5 and 0111100 give "arc". -/
theorem test_decode_arc :
    after (exec .decode (withBits t5 [0b01111000] 7)) (fun t =>
      t.status == 0x00010002 && t.outLen == 3 && t.trailBits == 0 &&
        t.outBuf == [(0, 0x61), (1, 0x72), (2, 0x63)]) = true := by decide

/-- V-DE-9: the wrapper and 01 give `BAD_PATH` at bit 1 after one symbol. -/
theorem test_decode_badPath :
    after (exec .decode (withBits (.wrapper 0x61) [0b01000000] 2)) (fun t =>
      report t == (0x00010406, 0, 1) && t.outLen == 0 && t.outBuf == [(0, 0x61)] &&
        t.root == .wrapper 0x61) = true := by decide

/-! DESERIALIZE -/

/-- V-DS-4: 30 31 30 31 31: symbols that equal the markers. -/
theorem test_deserialize_markers :
    after (exec .deserialize (withTok [0x30, 0x31, 0x30, 0x31, 0x31])) (fun t =>
      t.status == 0x00010002 && t.root == .internal (.leaf 0x30) (.leaf 0x31)) = true := by decide

/-- V-DS-6, 8, 11, 13, 16 and 19: each of the six sub-causes, at its position. -/
theorem test_deserialize_corrupt :
    deserialize [0x31, 0x61] = .error ⟨.rootLeaf, 0⟩ ∧ deserialize [0x30] = .error ⟨.truncSubtree, 1⟩ ∧
      deserialize [0x30, 0x31, 0x61, 0x31] = .error ⟨.truncLeaf, 4⟩ ∧
      deserialize [0x30, 0x31, 0x61, 0x00, 0x31, 0x62] = .error ⟨.badMarker, 3⟩ ∧
      deserialize [0x30, 0x31, 0x61, 0x31, 0x62, 0x30] = .error ⟨.trailing, 5⟩ ∧
      deserialize [0x30, 0x31, 0x61, 0x31, 0x61] = .error ⟨.dupSymbol, 4⟩ := by decide

/-! GEN_CODES -/

/-- R45's example and R74's: entry 'b' of T5 (code 110) reads `LEN` 3 and byte 32 = C0; `NSYM` is 5. -/
theorem test_genCodes_t5 :
    after (exec .genCodes { State.reset with root := t5 }) (fun t =>
      t.nsym == 5 && t.readByte .ctab 0x1880 == 0x03 && t.readByte .ctab 0x18A0 == 0xC0 &&
        t.readByte .ctab 0x1881 == 0) = true := by decide +kernel

/-! CLEAR and illegal words -/

/-- V-SC-1: `CLEAR` leaves no tree, an empty table and the lengths as they were. -/
theorem test_clear :
    after (exec .clear { State.reset with
      root := t5, ct := genCodes t5, freq := freqCount [0x61], inLen := 2, bitLen := 2 }) (fun t =>
      t.status == 0x00000002 && t.nsym == 0 && countOf t.freq 0x61 == 0 && t.inLen == 2 &&
        t.bitLen == 2) = true := by decide +kernel

/-- V-SC-3: the word 0x7 with a tree held. -/
theorem test_illegal_word :
    after (step { State.reset with root := t5, pending := some 0x7, errDetail := 3, errPos := 9 })
      (fun t => report t == (0x00010106, 0, 0)) = true := by decide

/-! Host accesses -/

/-- V-SC-7: a write to `IN_LEN` before the core step is dropped and sets `VIOL`. -/
theorem test_busy_write :
    after (step (busyMove (.write .reg 0x10 4 3))) (fun t =>
      t.inLen == 0 && t.viol && t.pending == some 1) = true := by decide

/-- V-SC-10: `OUT_LEN` ignores a write. -/
theorem test_write_readOnly :
    after (step (withMove (.write .reg 0x1C 4 5))) (fun t => t.outLen == 0) = true := by decide

/-- V-SC-11 and V-SC-12: offset 0x38 reads 0, `CAP_TOK` reads 768. -/
theorem test_read_registers :
    after (step (withMove (.read .reg 0x38 4))) (fun t => t.reads == [⟨.reg, 0x38, 0⟩]) = true ∧
      after (step (withMove (.read .reg 0x34 4))) (fun t => t.reads == [⟨.reg, 0x34, 768⟩]) = true := by
  decide

/-- R65, P3: the expansion of `WR TOK_LEN, 3; WB BIT_BUF[0], 0x20; CMD DECODE; WAIT`. -/
theorem test_host_program :
    hostMoves [.wr .tokLen 3, .wb .bitBuf 0 0x20, .cmd .decode, .wait] =
      [.access (.write .reg 0x18 4 3), .access (.write .bitBuf 0 1 0x20), .access (.write .reg 0x00 4 3),
        .wait] := by decide

/-- V-CT-3: `BIT_COUNT` 23 with `PACKED_LEN` 2 is rejected. -/
theorem test_container_inconsistent :
    readContainer Config.test
      (le64 0 ++ le64 2 ++ le64 23 ++ [0x6E, 0x8A]) = none := by decide

/-- V-CT-1: the container of "abracadabra". -/
theorem test_container_bytes :
    (Container.mk
      [0x30, 0x31, 0x61, 0x30, 0x30, 0x31, 0x63, 0x31, 0x64, 0x30, 0x31, 0x62, 0x31, 0x72] 23
      [0x6E, 0x8A, 0xDC]).bytes =
    [0x0E, 0, 0, 0, 0, 0, 0, 0] ++
      [0x30, 0x31, 0x61, 0x30, 0x30, 0x31, 0x63, 0x31, 0x64, 0x30, 0x31, 0x62, 0x31, 0x72] ++
      [0x03, 0, 0, 0, 0, 0, 0, 0] ++ [0x17, 0, 0, 0, 0, 0, 0, 0] ++ [0x6E, 0x8A, 0xDC] := by decide

/-! Witnesses: for every obligation with hypotheses, values that meet them all; for one with several clauses over one
input, values at the bounds of each clause. An obligation not named here has no hypothesis. -/

/-- A well-formed command, and the first and last reserved opcodes. -/
theorem witness_CommandWordsDecodeToTheirCommands :
    Instr.encode.wf = true ∧ (0x00 : Word).extractLsb' 0 4 = 0 ∧
      7 ≤ ((0x07 : Word).extractLsb' 0 4).toNat ∧ 7 ≤ ((0x0F : Word).extractLsb' 0 4).toNat := by decide

/-- Steps of the core: a latched legal word. -/
theorem witness_CoreStepPerformsTheLatchedCommand :
    let s : State := { State.reset with pending := some 2 }
    s.turn = .core ∧ s.pending = some 2 ∧ decode 2 = .ok .serialize := by decide

/-- The illegal words next to the legal ones, and one with a reserved bit set. -/
theorem witness_IllegalWordsCompleteWithIllegalCmd :
    ∀ w ∈ ([0, 7, 0x11] : List Word),
      ({ State.reset with pending := some w } : State).turn = .core ∧
        ¬ (1 ≤ w.toNat ∧ w.toNat ≤ 6) := by
  intro w hw
  refine ⟨rfl, ?_⟩
  simp only [List.mem_cons, List.not_mem_nil, or_false] at hw
  rcases hw with rfl | rfl | rfl <;> decide

theorem witness_PendingCommandIsPerformed :
    let s : State := { State.reset with pending := some 1 }
    s.sched = [] ∧ s.pending.isSome = true := by decide

theorem witness_WaitEndsAfterTheCommand :
    let s : State :=
      { State.reset with pending := some 2, host := [.wait], sched := List.replicate 3 Turn.host }
    s.pending = some 2 ∧ s.host = .wait :: [] ∧ s.sched = List.replicate 3 Turn.host := by decide

theorem witness_IdleBlockKeepsItsState :
    State.reset.pending = none ∧ State.reset.host = [] ∧ State.reset.sched = [] := by decide

theorem witness_CmdWriteLatchesTheCommand :
    let s := withMove (.write .reg 0x00 4 0x7)
    s.turn = .host ∧ s.pending = none ∧ s.host = .access (.write .reg 0x00 4 0x7) :: [] := by decide

/-- Both clauses: a register write and a byte write while busy; the next accept. -/
theorem witness_WritesWhileBusyAreDropped :
    (∀ a ∈ ([.write .reg 0x00 4 1, .write .inBuf 0 1 5, .write .ctab 0 1 5] : List Access),
      (busyMove a).turn = .host ∧ (busyMove a).pending.isSome = true ∧
        (busyMove a).host = .access a :: [] ∧ a.admitted = true) ∧
    (withMove (.write .reg 0x00 4 1)).turn = .host ∧ (withMove (.write .reg 0x00 4 1)).pending = none := by
  decide

/-- A read while idle, of a register and of a byte, and a read while busy. -/
theorem witness_HostReadsHaveNoSideEffect :
    (∀ a ∈ ([.read .reg 0x04 4, .read .ctab 0 1, .read .inBuf 9 1] : List Access),
      (withMove a).turn = .host ∧ (withMove a).host = .access a :: [] ∧ a.admitted = true ∧
        (withMove a).pending = none) ∧
    (busyMove (.read .inBuf 0 1)).turn = .host ∧
      (busyMove (.read .inBuf 0 1)).pending.isSome = true := by decide

theorem witness_BusyStatusReadShowsBusy :
    let s := busyMove (.read .reg 0x04 4)
    s.turn = .host ∧ s.pending.isSome = true ∧ s.host = .access (.read .reg 0x04 4) :: [] := by decide

/-- The first and the last register, the two reserved offsets and the first offset beyond the space. -/
theorem witness_RegisterReadsReturnTheirValues :
    ∀ off ∈ [0x00, 0x04, 0x24, 0x34, 0x38, 0x3C, 64],
      let s := withMove (.read .reg off 4)
      s.turn = .host ∧ s.pending = none ∧ s.host = .access (.read .reg off 4) :: [] ∧ off % 4 = 0 := by
  decide

/-- An `R` register, the three `RW` registers, a reserved offset and one beyond the space. -/
theorem witness_RegisterWritesFollowTheirAccessKind :
    ∀ off ∈ [0x04, 0x10, 0x14, 0x18, 0x1C, 0x3C, 64],
      let s := withMove (.write .reg off 4 5)
      s.turn = .host ∧ s.pending = none ∧ s.host = .access (.write .reg off 4 5) :: [] ∧
        off % 4 = 0 ∧ off ≠ 0x00 := by decide

/-- Accesses of both kinds, admitted and not. -/
theorem witness_OnlyAdmittedAccessesArePerformed :
    ∀ a ∈ ([.read .reg 0 4, .read .reg 2 4, .write .reg 0 1 0, .write .inBuf 0 1 0, .read .ctab 0 4] :
        List Access),
      (withMove a).turn = .host ∧ (withMove a).host = .access a :: [] := by decide

/-- The first offset beyond each space, read and written. -/
theorem witness_AccessesBeyondASpaceReadZero :
    ∀ p ∈ ([(.reg, 64, 4), (.inBuf, 4096, 1), (.bitBuf, 4096, 1), (.tokBuf, 768, 1), (.outBuf, 4096, 1),
        (.ctab, 16384, 1)] : List (Space × Nat × Nat)),
      Config.test.size p.1 ≤ p.2.1 ∧ (Access.read p.1 p.2.1 p.2.2).admitted = true ∧
        (Access.write p.1 p.2.1 p.2.2 7).admitted = true ∧
        (withMove (.read p.1 p.2.1 p.2.2)).turn = .host ∧
        (withMove (.write p.1 p.2.1 p.2.2 7)).pending = none := by decide

/-- The first and the last byte of a buffer. -/
theorem witness_BufferWritesReadBack :
    ∀ off ∈ [0, 767],
      let s := withMove (.write .tokBuf off 1 0x30)
      s.turn = .host ∧ s.pending = none ∧ Space.tokBuf.isBuffer = true ∧ off < s.cfg.size .tokBuf ∧
        s.host = .access (.write .tokBuf off 1 0x30) :: [] := by decide

/-- V-SC-14: both clauses. -/
theorem witness_CodeTableSpaceIgnoresWrites :
    ((withMove (.write .ctab 0 1 9)).turn = .host ∧ (withMove (.write .ctab 0 1 9)).pending = none) ∧
      (busyMove (.write .ctab 0 1 9)).turn = .host ∧
      (busyMove (.write .ctab 0 1 9)).pending.isSome = true := by decide

/-- An absent and a present entry; byte 0, the reserved bytes and the code bytes at their bounds. -/
theorem witness_CodeTableViewShowsTheEntry :
    entry State.reset.ct 0x61 = none ∧
      entry (genCodes (.wrapper 0x61)) 0x61 = some [false] ∧
      ∀ j ∈ [0, 1, 31, 32, 63], j < 64 := by decide +kernel

theorem witness_ResetFromEveryState :
    ({ State.reset with pending := some 1, sched := [.reset] } : State).turn = .reset := by decide

/-- A tree whose table has an entry and one that has none for it. -/
theorem witness_GenCodesRecordsEveryLeafsPath :
    t5.legal = true ∧ t5.follow [true, true, false] = .leaf 0x62 := by decide

theorem witness_NsymCountsTheLeavesAfterGenCodes :
    ({ State.reset with root := t5 } : State).root.legal = true := by decide

theorem witness_GenCodesAfterEncodeChangesNothing :
    (withIn [0x61, 0x62]).inLen.toNat ≤ (withIn [0x61, 0x62]).cfg.inCap.toNat ∧
      after (exec .encode (withIn [0x61, 0x62])) (fun t => t.errCode == 0) = true := by decide +kernel

theorem witness_CodesArePrefixFree :
    t5.legal = true ∧ (0x61 : Byte) ≠ 0x62 ∧ entry (genCodes t5) 0x61 = some [false] ∧
      entry (genCodes t5) 0x62 = some [true, true, false] := by decide +kernel

theorem witness_FullTreeCodesAreComplete :
    t5.isFullTree = true ∧ entry (genCodes (.wrapper 0x61)) 0x61 = some [false] := by decide +kernel

theorem witness_CodesAreOneTo255BitsLong :
    t5.legal = true ∧ entry (genCodes t5) 0x61 = some [false] := by decide +kernel

theorem witness_SerializedLengthIsBounded : t5.isFullTree = true ∧ t5.legal = true := by decide

theorem witness_SerializeWritesTheHeldTree :
    ({ State.reset with root := t5 } : State).root.legal = true ∧ (serialize t5).length ≤ 14 ∧
      13 < (serialize t5).length := by
  decide

theorem witness_SerializeThenDeserializeKeepsTheTree :
    ({ State.reset with root := .wrapper 0 } : State).root.legal = true := by decide

/-- The three clauses, at `TOK_LEN` 769 and 768 and at 1 (V-DS-12) and 0 (V-DS-1). -/
theorem witness_DeserializeLoadsOrFails :
    768 < (769 : Word).toNat ∧ (768 : Word).toNat ≤ 768 ∧
      deserialize (withTok [0x32]).tokBytes = .error ⟨.badMarker, 0⟩ ∧
      deserialize (withTok []).tokBytes = .ok .nil := by decide

/-- Each of the six sub-causes occurs (V-DS-6, 8, 11, 12, 16, 19); a repeated symbol
that equals the internal marker, and what the tokens before it hold. -/
theorem witness_CorruptPositionsNameTheOffendingByte :
    deserialize [0x32] = .error ⟨.badMarker, 0⟩ ∧
      deserialize [0x30, 0x31, 0x61, 0x31] = .error ⟨.truncLeaf, 4⟩ ∧
      deserialize [0x30] = .error ⟨.truncSubtree, 1⟩ ∧
      deserialize [0x30, 0x31, 0x61, 0x31, 0x62, 0x30] = .error ⟨.trailing, 5⟩ ∧
      deserialize [0x31, 0x61] = .error ⟨.rootLeaf, 0⟩ ∧
      deserialize [0x30, 0x31, 0x61, 0x31, 0x61] = .error ⟨.dupSymbol, 4⟩ ∧
      deserialize [0x30, 0x31, 0x30, 0x31, 0x30] = .error ⟨.dupSymbol, 4⟩ ∧
      leafSymbols [0x30, 0x31, 0x30] = some [0x30] ∧ leafSymbols [0x30, 0x31] = none := by decide

/-- Two states that differ only at `TOK_LEN`. -/
theorem witness_DeserializeReadsOnlyTokLenBytes :
    let s := withTok [0x32]
    let s' : State := { s with tokBuf := cells [0x32, 0x99] }
    s'.tokLen = s.tokLen ∧ s'.root = s.root ∧
      ∀ a < s.tokLen.toNat, s'.readByte .tokBuf a = s.readByte .tokBuf a := by decide

/-- R69: of two entries of weight 1, the one of the lesser sequence number, then the other; and the queue of "aab". -/
theorem witness_MergesTakeTheTwoLeastKeys :
    (extractMin [⟨4, 0, .leaf 0x61⟩, ⟨1, 2, .leaf 0x63⟩, ⟨1, 1, .leaf 0x62⟩] =
        some (⟨1, 1, .leaf 0x62⟩, [⟨4, 0, .leaf 0x61⟩, ⟨1, 2, .leaf 0x63⟩]) ∧
      extractMin [⟨4, 0, .leaf 0x61⟩, ⟨1, 2, .leaf 0x63⟩] =
        some (⟨1, 2, .leaf 0x63⟩, [⟨4, 0, .leaf 0x61⟩])) ∧
      leafQueue (freqCount [0x61, 0x62, 0x61]) = [⟨2, 0, .leaf 0x61⟩, ⟨1, 1, .leaf 0x62⟩] := by
  decide +kernel

/-- No symbol, one symbol, two symbols. -/
theorem witness_BuiltTreeHasThePresentSymbols :
    (∀ x, countOf (freqCount []) x = 0) ∧
      (countOf (freqCount [7]) 7 ≠ 0 ∧ ∀ x, x ≠ 7 → countOf (freqCount [7]) x = 0) ∧
      (7 : Byte) ≠ 8 ∧ countOf (freqCount [7, 8]) 7 ≠ 0 ∧ countOf (freqCount [7, 8]) 8 ≠ 0 := by
  decide +kernel

/-- V-EN-16: `IN_LEN` 5000 in the test configuration. -/
theorem witness_EncodeInputTooLongChangesNothing :
    let s : State := { State.reset with inLen := 5000 }
    s.cfg.inCap.toNat < s.inLen.toNat := by decide

/-- `IN_LEN` equal to `IN_CAP` is within the hypothesis. -/
theorem witness_EncodeBuildsFreshTables :
    (0 : Word).toNat ≤ State.reset.cfg.inCap.toNat ∧
      (4096 : Word).toNat ≤ State.reset.cfg.inCap.toNat := by decide

theorem witness_EveryInputByteHasACode :
    (withIn [0x61, 0x62]).inLen.toNat ≤ (withIn [0x61, 0x62]).cfg.inCap.toNat ∧
      (0x61 : Byte) ∈ (withIn [0x61, 0x62]).inBytes := by decide +kernel

/-- Nine equal bytes take nine bits, one more than `BIT_CAP` 8. -/
theorem witness_EncodePastBitCapacityReportsTheByte :
    let s : State := { withIn (List.replicate 9 0x61) with cfg := oneByte }
    s.inLen.toNat ≤ s.cfg.inCap.toNat ∧
      s.cfg.bitCap < (encodeBits (genCodes (build (freqCount s.inBytes))) s.inBytes).length := by
  decide +kernel

/-- V-EN-18: a total of exactly `BIT_CAP`, here eight equal bytes. -/
theorem witness_EncodeWritesTheCodesInInputOrder :
    let s : State := { withIn (List.replicate 8 0x61) with cfg := oneByte }
    s.inLen.toNat ≤ s.cfg.inCap.toNat ∧
      (encodeBits (genCodes (build (freqCount s.inBytes))) s.inBytes).length ≤ s.cfg.bitCap := by
  decide +kernel

theorem witness_EncodedLengthIsTheWeightedSum :
    (withIn [0x61, 0x62]).inLen.toNat ≤ (withIn [0x61, 0x62]).cfg.inCap.toNat := by decide

/-- Two states that differ in the tree held and in `IN_BUF` at `IN_LEN`. -/
theorem witness_EncodeDependsOnItsInputOnly :
    let s := withIn [0x61]
    let s' : State := { s with inBuf := cells [0x61, 0x62], root := t5 }
    s'.cfg = s.cfg ∧ s'.inLen = s.inLen ∧ s.inLen.toNat ≤ s.cfg.inCap.toNat ∧
      ∀ a < s.inLen.toNat, s'.readByte .inBuf a = s.readByte .inBuf a := by decide

theorem witness_PackedWriteIsTheBitLoop :
    [true, false, true].length ≤ State.reset.cfg.bitCap := by decide

/-- The three clauses: `TOK_LEN` 769; 768 with `BIT_LEN` one above `BIT_CAP`; a corrupt sequence (V-DE-16). -/
theorem witness_DecodeFailsBeforeTheWalk :
    768 < (769 : Word).toNat ∧
      ((768 : Word).toNat ≤ 768 ∧ State.reset.cfg.bitCap < (32769 : Word).toNat) ∧
      (withTok [0x31, 0x61]).tokLen.toNat ≤ 768 ∧
      (withTok [0x31, 0x61]).bitLen.toNat ≤ (withTok [0x31, 0x61]).cfg.bitCap ∧
      (withTok [0x31, 0x61]).tokLen ≠ 0 ∧
      deserialize (withTok [0x31, 0x61]).tokBytes = .error ⟨.rootLeaf, 0⟩ := by decide

/-- V-DE-11. -/
theorem witness_DecodeWithoutATreeDiscardsEveryBit :
    (withBits .nil [0b10110000] 4).decodesWith .nil :=
  ⟨by decide, by decide, .inl ⟨by decide, rfl⟩⟩

/-- V-DE-3: "ab" and one trailing bit with the held tree; V-DE-15: "ba" with a tree from `TOK_BUF`. -/
theorem witness_DecodeGivesBackTheEncodedSymbols :
    ((withBits t5 [0b01101000] 5).decodesWith t5 ∧ t5.legal = true ∧ t5 ≠ .nil ∧
      (∀ x ∈ ([0x61, 0x62] : List Byte), x ∈ t5.leaves) ∧ (∃ l r, t5.follow [true] = .internal l r) ∧
      (withBits t5 [0b01101000] 5).bits =
        ([0x61, 0x62] : List Byte).flatMap (codeOf (genCodes t5)) ++ [true] ∧
      2 ≤ (withBits t5 [0b01101000] 5).cfg.outCap.toNat) ∧
    ({ withTok [0x30, 0x31, 0x61, 0x31, 0x62] with
        root := t5, bitBuf := cells [0b10000000], bitLen := 2 } : State).decodesWith
      (.internal (.leaf 0x61) (.leaf 0x62)) :=
  ⟨⟨⟨by decide, by decide, .inl ⟨by decide, rfl⟩⟩, by decide, by decide, by decide, ⟨_, _, rfl⟩,
    by decide +kernel, by decide⟩, ⟨by decide, by decide, .inr ⟨by decide, by decide⟩⟩⟩

/-- V-DE-12 in spirit: `OUT_CAP` 2 and three symbols. -/
theorem witness_DecodeOutputCapacityReportsTheBit :
    let s : State := { withBits (.wrapper 0x61) [0] 3 with cfg := { Config.test with outCap := 2 } }
    s.decodesWith (.wrapper 0x61) ∧ (Tree.wrapper 0x61).legal = true ∧ Tree.wrapper 0x61 ≠ .nil ∧
      (∀ x ∈ ([0x61, 0x61, 0x61] : List Byte), x ∈ (Tree.wrapper 0x61).leaves) ∧
      s.bits = ([0x61, 0x61, 0x61] : List Byte).flatMap (codeOf (genCodes (.wrapper 0x61))) ++ [] ∧
      s.cfg.outCap.toNat < 3 :=
  ⟨⟨by decide, by decide, .inl ⟨by decide, rfl⟩⟩, by decide, by decide, by decide, by decide +kernel,
    by decide⟩

/-- V-DE-9 and V-DE-10: the 1 bit after one 0 bit, and at once; and with the output just full. -/
theorem witness_DecodeOfAOneBitOnAWrapperIsBadPath :
    ((withBits (.wrapper 0x61) [0b01000000] 2).decodesWith (.wrapper 0x61) ∧
      (withBits (.wrapper 0x61) [0b01000000] 2).bits = List.replicate 1 false ++ true :: []) ∧
    (withBits (.wrapper 0x61) [0b10000000] 1).bits = List.replicate 0 false ++ true :: [] ∧
    1 ≤ ({ Config.test with outCap := 1 } : Config).outCap.toNat :=
  ⟨⟨⟨by decide, by decide, .inl ⟨by decide, rfl⟩⟩, by decide⟩, by decide, by decide⟩

theorem witness_BadPathHappensOnlyOnAWrapper :
    (withBits (.wrapper 0x61) [0b01000000] 2).root.legal = true := by decide

/-- V-DE-1 ends without error, V-DE-10 with one. -/
theorem witness_DecodedLengthIsWithinTheBits :
    after (exec .decode (withBits t5 [0b01111000] 7)) (fun t => t.errCode == 0) = true ∧
      after (exec .decode (withBits (.wrapper 0x61) [0b10000000] 1)) (fun t => t.errCode != 0) = true := by
  decide

/-- A state that decodes with a tree, one that decodes with none, and one that fails before the walk. -/
theorem witness_DecodeTouchesOnlyItsOutputs :
    (withBits t5 [0b01111000] 7).decodesWith t5 ∧ (withBits .nil [0] 4).decodesWith .nil ∧
      ∀ root, ¬ ({ State.reset with tokLen := 769 } : State).decodesWith root :=
  ⟨⟨by decide, by decide, .inl ⟨by decide, rfl⟩⟩, ⟨by decide, by decide, .inl ⟨by decide, rfl⟩⟩,
    fun _ h => absurd h.1 (by decide)⟩

/-- Two states that differ in the pad bits and in `CT`; the first decodes with T5 and its walk emits 3 symbols. -/
theorem witness_DecodeIgnoresBitsBeyondBitLen :
    let s := withBits t5 [0b01111000] 7
    let s' : State := { s with bitBuf := cells [0b01111001], ct := genCodes t5 }
    (s'.cfg = s.cfg ∧ s'.root = s.root ∧ s'.tokLen = s.tokLen ∧ s'.bitLen = s.bitLen ∧
      (∀ a < s.tokLen.toNat, s'.readByte .tokBuf a = s.readByte .tokBuf a) ∧
      ∀ k < s.bitLen.toNat, s'.bitRead k = s.bitRead k) ∧
      s.decodesWith t5 ∧ t5 ≠ .nil ∧ (s.decodeWalk t5).out.length = 3 :=
  ⟨by decide, ⟨by decide, by decide, .inl ⟨by decide, rfl⟩⟩, by decide, by decide⟩

/-- The empty input and "ab". -/
theorem witness_EncodeSerializeDecodeRoundTrip :
    ∀ bs ∈ ([[], [0x61, 0x62]] : List (List Byte)),
      let s := withIn bs
      s.inLen.toNat ≤ s.cfg.inCap.toNat ∧ s.inLen.toNat ≤ s.cfg.outCap.toNat ∧
        (encodeBits (genCodes (build (freqCount s.inBytes))) s.inBytes).length ≤ s.cfg.bitCap := by
  decide +kernel

/-- A step that changes the tree, one that changes the table and one that changes the lengths. -/
theorem witness_OnlyTheNamedCommandsChangeTreeAndTable :
    after (step { State.reset with root := t5, pending := some 6 }) (fun t => t.root != t5) = true ∧
      after (step { State.reset with root := .wrapper 1, pending := some 5 })
        (fun t => t.ct != State.reset.ct) = true ∧
      after (step { withBits .nil [0] 4 with pending := some 3 }) (fun t => t.trailBits != 0) = true := by
  decide +kernel

/-- The state after reset is in order, and it takes a step. -/
theorem witness_EveryStepKeepsTheInvariant : State.reset.Inv ∧ step State.reset = .next State.reset := by
  refine ⟨⟨by decide, rfl, ⟨.nil, rfl, rfl⟩, fun sp => ?_, by decide, by decide,
    fun h => absurd h (by decide), by decide, by decide⟩, rfl⟩
  cases sp <;> exact ⟨List.Pairwise.nil, fun c hc => absurd hc List.not_mem_nil⟩

theorem witness_ResetMeetsTheInvariant : Config.test.wf = true := by decide

/-- The bounds of the two hypotheses. -/
theorem witness_ContainersReadBack :
    (768 : Word).toNat ≤ 768 ∧ (32768 : Word).toNat ≤ State.reset.cfg.bitCap ∧
      0 < (Container.mk [] 0 []).bytes.length := by decide

end Sys2Proof.Machine
end

/-! The family of 00_scope.md: the core's step runs the latched command (rule R58), the codes are 1 to 255 bits long
(rule R63), and every step keeps the invariant `State.Inv`. For the invariant there is one lemma per move of an agent:
the host's accesses, each command's meaning, and reset. -/

namespace Sys2Proof.Machine

/-! ## The core's turn -/

/-- A legal word is performed as its command (rule R58). -/
theorem performWord_of_ok {w : Word} {i : Instr} (h : decode w = .ok i) (s : State) :
    performWord w s = exec i s := by
  rw [performWord, h]

/-- An illegal word is performed as `ILLEGAL_CMD` (rules R58, R102). -/
theorem performWord_of_error {w : Word} {e : IllegalWord} (h : decode w = .error e) (s : State) :
    performWord w s = .next (illegalWord s) := by
  rw [performWord, h]

/-- Settles O3: the core's turn performs the latched word, and a legal word is its command. -/
theorem coreStepPerformsTheLatchedCommand : Obligations.CoreStepPerformsTheLatchedCommand := by
  intro s w i ht hp hd
  rw [step_core ht hp, performWord_of_ok hd]
  rfl

/-! ## The length of a code -/

/-- Settles O28: an entry of the table is the path to a leaf, and such a path in a legal tree is 1 to 255 bits long. -/
theorem codesAreOneTo255BitsLong : Obligations.CodesAreOneTo255BitsLong := by
  intro t x p hl hp
  exact Tree.code_length hl ((entry_genCodes (Tree.legal_nodup hl) x p).1 hp)

/-! ## The invariant: bookkeeping and reset -/

theorem State.Inv.spendTurn {s : State} (h : s.Inv) : s.spendTurn.Inv :=
  h.of_unconstrained rfl

theorem State.Inv.withHost {s : State} (h : s.Inv) (rest : List HostMove) : (s.withHost rest).Inv :=
  h.of_unconstrained rfl

/-- The state after reset is in order (rules R35, R119). -/
theorem State.Inv.resetWith {c : Config} (hc : c.wf = true) : (State.resetWith c).Inv where
  config := hc
  root := rfl
  table := ⟨.nil, rfl, rfl⟩
  buffers sp := by cases sp <;> exact ⟨.nil, fun _ hm => absurd hm List.not_mem_nil⟩
  busy := by simp [State.resetWith]
  notDone _ := rfl
  report := by simp [State.resetWith]
  outLen := Nat.zero_le _
  trailBits := Nat.zero_le _

theorem State.Inv.resetBlock {s : State} (h : s.Inv) : s.resetBlock.Inv :=
  (State.Inv.resetWith h.config).of_unconstrained rfl

/-! ## The invariant: the host's turn -/

/-- A read changes the model's own fields only (rule R42). -/
theorem State.Inv.hostRead {s : State} (h : s.Inv) (sp : Space) (off : Nat) : (s.hostRead sp off).2.Inv := by
  cases hp : s.pending with
  | none =>
    rw [State.hostRead_idle hp]
    exact h.of_unconstrained rfl
  | some w =>
    rw [State.hostRead_busy (by simp [hp])]
    exact h.of_unconstrained rfl

/-- An accept clears `DONE` and `ERRCODE` together (rule R57). -/
theorem State.Inv.accept {s : State} (h : s.Inv) (w : Word) : (s.accept w).Inv where
  config := h.config
  root := h.root
  table := h.table
  buffers sp := by
    have hb := h.buffers sp
    cases sp <;> exact hb
  busy _ := rfl
  notDone _ := rfl
  report := by simp
  outLen := h.outLen
  trailBits := h.trailBits

/-- A write of a register accepts a command, stores a length the invariant leaves free, or is ignored (rule R17). -/
theorem State.Inv.writeReg {s : State} (h : s.Inv) (r : Reg) (v : Word) : (s.writeReg r v).Inv := by
  cases r with
  | cmd => exact h.accept v
  | inLen | bitLen | tokLen => exact h.of_unconstrained rfl
  | status | errDetail | errPos | outLen | trailBits | nsym | capIn | capBit | capOut | capTok => exact h

theorem State.Inv.regWrite {s : State} (h : s.Inv) (off : Nat) (v : Word) : (s.regWrite off v).Inv := by
  unfold State.regWrite
  split
  · exact h.writeReg _ v
  · exact h

theorem State.Inv.hostWrite {s : State} (h : s.Inv) (sp : Space) (off : Nat) (v : Word) :
    (s.hostWrite sp off v).Inv := by
  cases hp : s.pending with
  | some w =>
    rw [State.hostWrite_busy (by simp [hp])]
    exact h.of_unconstrained rfl
  | none =>
    by_cases hs : sp = .reg
    · rw [hs, State.hostWrite_reg hp]
      exact h.regWrite off v
    · rw [State.hostWrite_byte hp hs]
      exact h.writeBytes sp off [v.setWidth 8]

theorem State.Inv.hostAccess {s : State} (h : s.Inv) (a : Access) : (s.hostAccess a).Inv := by
  cases a with
  | read sp off width => exact h.hostRead sp off
  | write sp off width v => exact h.hostWrite sp off v

/-- The host's turn: no move left, an access admitted or refused, or a poll of `WAIT` that goes on or ends. -/
theorem State.Inv.hostTurn {s t : State} (h : s.Inv) (ht : hostTurn s = .next t) : t.Inv := by
  unfold Machine.hostTurn at ht
  split at ht
  · cases ht
    exact h
  · split at ht
    · cases ht
      exact (h.withHost _).hostAccess _
    · cases ht
  · simp only at ht
    split at ht
    · cases ht
      exact h.hostRead _ _
    · cases ht
      exact (h.hostRead _ _).withHost _

/-! ## The invariant: the commands -/

theorem State.Inv.setRoot {s : State} (h : s.Inv) {root : Tree} (hr : root.legal = true) :
    State.Inv { s with root := root } :=
  h.tables hr h.table

/-- The fresh tree and table of `ENCODE` are legal, whatever the input (rules R68, R77). -/
theorem State.Inv.freshTables {s : State} (h : s.Inv) : s.freshTables.Inv :=
  (h.tables (build_legal _) ⟨_, build_legal _, rfl⟩).of_unconstrained rfl

/-- A failing `DECODE` leaves both lengths 0 (rule R81). -/
theorem State.Inv.decodeFail {s : State} (h : s.Inv) (r : CmdResult) : (s.decodeFail r).Inv :=
  (h.lengths (Nat.zero_le _) (Nat.zero_le _)).complete r

theorem toNat_wordOfNat_le (n : Nat) : (Word.ofNat n).toNat ≤ n :=
  (BitVec.toNat_ofNat n 32).trans_le (Nat.mod_le _ _)

/-- `DECODE` emits at most `OUT_CAP` symbols, and has read at most `BIT_LEN` bits since the last one (rule R81). -/
theorem State.decodeWalk_bounds (s : State) (root : Tree) :
    (s.decodeWalk root).out.length ≤ s.cfg.outCap.toNat ∧
      ∀ n, (s.decodeWalk root).stop = .ok n → n ≤ s.bitLen.toNat := by
  obtain ⟨hout, hstop⟩ :=
    walkBits_bounds root s.cfg.outCap.toNat s.bits 0 root (m := 0) 0 (Nat.zero_le _)
  refine ⟨by simpa [State.decodeWalk] using hout, fun n hn => ?_⟩
  rw [State.decodeWalk] at hn
  simp only [hn, State.bits_length] at hstop
  omega

theorem State.Inv.decodeHeld {s : State} (h : s.Inv) (hb : s.bitLen.toNat ≤ s.cfg.bitCap) :
    (decodeHeld s).Inv := by
  by_cases hn : s.root = .nil
  · rw [Machine.decodeHeld, if_pos hn]
    exact (h.lengths (Nat.zero_le _) hb).complete .ok
  · obtain ⟨hout, hsince⟩ := s.decodeWalk_bounds s.root
    have hw := h.writeBytes .outBuf 0 (s.decodeWalk s.root).out
    rw [show Machine.decodeHeld s = _ from decodeHeld_walk hn]
    cases hstop : (s.decodeWalk s.root).stop with
    | error r => exact hw.decodeFail r
    | ok n =>
      refine (hw.lengths ((toNat_wordOfNat_le _).trans ?_) ((toNat_wordOfNat_le _).trans ?_)).complete .ok
      · simpa using hout
      · simpa using (hsince n hstop).trans hb

theorem State.Inv.execEncode {s : State} (h : s.Inv) : ∃ t, execEncode s = .next t ∧ t.Inv := by
  obtain ⟨-, e⟩ | ⟨-, i, -, -, -, -, e⟩ | ⟨-, -, e⟩ := execEncode_cases s
  · exact ⟨_, e, h.complete _⟩
  · exact ⟨_, e, (h.freshTables.of_unconstrained rfl).complete _⟩
  · exact ⟨_, e, ((h.freshTables.writeBytes _ _ _).of_unconstrained rfl).complete _⟩

theorem State.Inv.execDecode {s : State} (h : s.Inv) : ∃ t, execDecode s = .next t ∧ t.Inv := by
  obtain ⟨-, e⟩ | ⟨-, -, e⟩ | ⟨-, -, -, c, -, e⟩ | ⟨root, hd, e⟩ := execDecode_cases s
  · exact ⟨_, e, h.decodeFail _⟩
  · exact ⟨_, e, h.decodeFail _⟩
  · exact ⟨_, e, (h.setRoot Tree.legal_nil).decodeFail _⟩
  · have hroot := State.decodesWith_legal h.root hd
    obtain ⟨-, hb, -⟩ := hd
    exact ⟨_, e, (h.setRoot hroot).decodeHeld hb⟩

theorem State.Inv.execDeserialize {s : State} (h : s.Inv) : ∃ t, execDeserialize s = .next t ∧ t.Inv := by
  obtain ⟨-, e⟩ | ⟨-, c, -, e⟩ | ⟨-, root, hd, e⟩ := execDeserialize_cases s
  · exact ⟨_, e, h.complete _⟩
  · exact ⟨_, e, (h.setRoot Tree.legal_nil).complete _⟩
  · exact ⟨_, e, (h.setRoot (deserialize_legal hd)).complete _⟩

/-- Every command completes in a state in order. -/
theorem State.Inv.exec {s : State} (h : s.Inv) (i : Instr) : ∃ t, exec i s = .next t ∧ t.Inv := by
  cases i with
  | encode => exact h.execEncode
  | serialize => exact ⟨_, rfl, ((h.writeBytes _ _ _).of_unconstrained rfl).complete _⟩
  | decode => exact h.execDecode
  | deserialize => exact h.execDeserialize
  | genCodes => exact ⟨_, rfl, (h.tables h.root ⟨s.root, h.root, rfl⟩).complete _⟩
  | clear =>
    have hc : State.Inv { s with root := .nil, ct := Vector.replicate 256 none } :=
      h.tables Tree.legal_nil ⟨.nil, rfl, rfl⟩
    exact ⟨_, rfl, (hc.of_unconstrained rfl).complete _⟩

theorem State.Inv.performWord {s : State} (h : s.Inv) (w : Word) :
    ∃ t, performWord w s = .next t ∧ t.Inv := by
  cases hd : decode w with
  | ok i =>
    rw [performWord_of_ok hd]
    exact h.exec i
  | error e => exact ⟨_, performWord_of_error hd s, h.complete _⟩

/-! ## The invariant: every step -/

theorem State.Inv.step_core {s : State} (h : s.Inv) (ht : s.turn = .core) : ∃ t, step s = .next t ∧ t.Inv := by
  cases hp : s.pending with
  | none => exact ⟨_, step_core_none ht hp, h.spendTurn⟩
  | some w =>
    rw [Machine.step_core ht hp]
    exact h.spendTurn.performWord w

/-- A step whose turn is the host's is a host turn after the turn is used up (log entry 5). -/
theorem step_host {s : State} (ht : s.turn = .host) : step s = hostTurn s.spendTurn := by
  rw [step, takeTurn, ht]

/-- Settles O58, by whose turn the step is. -/
theorem everyStepKeepsTheInvariant : Obligations.EveryStepKeepsTheInvariant := by
  intro s t h hstep
  cases ht : s.turn with
  | host =>
    rw [step_host ht] at hstep
    exact h.spendTurn.hostTurn hstep
  | core =>
    obtain ⟨u, hu, hinv⟩ := h.step_core ht
    cases hu.symm.trans hstep
    exact hinv
  | reset =>
    cases (step_reset ht).symm.trans hstep
    exact h.spendTurn.resetBlock

end Sys2Proof.Machine

/-! The family of 10_state.md: what the deserializer accepts (rules R90 to R99), what the registers read and store
(rules R16 to R27), what reset leaves (rules R35, R118), the count of leaves (rule R26), the lengths of `DECODE`
(rules R24, R25), and which steps change the held tree and table (rules R29, R31). -/

namespace Sys2Proof.Machine

/-! ## The deserializer -/

/-- A sequence the deserializer accepts is the serialization of the tree it gives back (rules R90 to R92, R97). -/
theorem eq_serialize_of_deserialize {toks : List Byte} {t : Tree} (h : deserialize toks = .ok t) :
    toks = serialize t := by
  by_cases h0 : toks = []
  · subst h0
    cases h
    rfl
  · by_cases hw : ∃ s, toks = serialize (.wrapper s)
    · obtain ⟨s, rfl⟩ := hw
      rw [deserialize_wrapper] at h
      cases h
      rfl
    · rw [deserialize_eq_parseTree h0 (not_exists.1 hw)] at h
      exact (parseTree_ok h).1

/-- The serialization of a tree the block can hold gives it back (rule R99). -/
theorem deserialize_serialize {t : Tree} (h : t.legal = true) : deserialize (serialize t) = .ok t := by
  obtain rfl | ⟨s, rfl⟩ | ⟨l, r, rfl, hl, hr, hn⟩ := Tree.legal_cases h
  · rfl
  · exact deserialize_wrapper s
  · rw [deserialize_eq_parseTree (by simp [serialize]) (serialize_internal_ne_wrapper hl hr),
      parseTree_serialize hl hr hn]

/-- Settles O31: an accepted sequence is a serialization (by induction on what `Sub` read), and each legal shape's
serialization is accepted. -/
theorem deserializerAcceptsExactlySerializedTrees : Obligations.DeserializerAcceptsExactlySerializedTrees := by
  intro toks t
  constructor
  · intro h
    exact ⟨deserialize_legal h, eq_serialize_of_deserialize h⟩
  · rintro ⟨hl, rfl⟩
    exact deserialize_serialize hl

/-! ## Register reads -/

/-- An offset that is a register's reads its value (rules R16, R17). -/
theorem State.regRead_offset (s : State) (r : Reg) : s.regRead r.offset = s.regValue r := by
  simp only [State.regRead, Reg.at?_offset]

/-- An offset that is no register's reads 0 (rules R17, R37). -/
theorem State.regRead_of_at?_none {off : Nat} (h : Reg.at? off = none) (s : State) : s.regRead off = 0 := by
  simp only [State.regRead, h]

/-- `NSYM` counts the symbols whose entry is present (rule R26). -/
theorem State.nsym_eq_countP (s : State) :
    s.nsym = (List.range 256).countP (fun n => (entry s.ct (Byte.ofNat n)).isSome) :=
  codeTable_countP s.ct

/-- `REG` admits a 32-bit access at a multiple of 4 (rule R41). -/
theorem admitsWidth_reg {off : Nat} (h : off % 4 = 0) : admitsWidth .reg off 4 = true := by
  simp [admitsWidth, h]

/-- The host's step that reads a register while no command is pending. -/
theorem step_regRead {s : State} {off : Nat} {rest : List HostMove} (ht : s.turn = .host)
    (hp : s.pending = none) (hh : s.host = .access (.read .reg off 4) :: rest) (ha : off % 4 = 0) :
    step s = .next ((s.spendTurn.withHost rest).observe .reg off (s.regRead off)) := by
  have hidle : (s.spendTurn.withHost rest).pending = none := hp
  rw [step_host_access ht hh (admitsWidth_reg ha), State.hostAccess, State.hostRead_idle hidle,
    State.idleRead_congr (s := s) rfl]
  rfl

/-- Settles O13, by whether the offset is a register's, and then by the register. -/
theorem registerReadsReturnTheirValues : Obligations.RegisterReadsReturnTheirValues := by
  intro s off rest ht hp hh ha
  rw [step_regRead ht hp hh ha]
  obtain ⟨r, rfl, -⟩ | ⟨hoff, hnone⟩ := Reg.at?_cases off
  · rw [State.regRead_offset]
    cases r with
    | nsym =>
      rw [State.regValue, State.nsym_eq_countP]
      rfl
    | cmd | status | errDetail | errPos | inLen | bitLen | tokLen | outLen | trailBits | capIn | capBit | capOut
    | capTok => rfl
  · rw [State.regRead_of_at?_none hnone]
    simp only [show off ≠ 0x04 from hoff .status, show off ≠ 0x08 from hoff .errDetail,
      show off ≠ 0x0C from hoff .errPos, show off ≠ 0x10 from hoff .inLen, show off ≠ 0x14 from hoff .bitLen,
      show off ≠ 0x18 from hoff .tokLen, show off ≠ 0x1C from hoff .outLen, show off ≠ 0x20 from hoff .trailBits,
      show off ≠ 0x24 from hoff .nsym, show off ≠ 0x28 from hoff .capIn, show off ≠ 0x2C from hoff .capBit,
      show off ≠ 0x30 from hoff .capOut, show off ≠ 0x34 from hoff .capTok, if_false]
    rfl

/-! ## Register writes -/

/-- The host's step that writes a register while no command is pending. -/
theorem step_regWrite {s : State} {off : Nat} {v : Word} {rest : List HostMove} (ht : s.turn = .host)
    (hp : s.pending = none) (hh : s.host = .access (.write .reg off 4 v) :: rest) (ha : off % 4 = 0) :
    step s = .next ((s.spendTurn.withHost rest).regWrite off v) := by
  have hidle : (s.spendTurn.withHost rest).pending = none := hp
  rw [step_host_access ht hh (admitsWidth_reg ha), State.hostAccess, State.hostWrite_reg hidle]

/-- A write at a register's offset is a write of the register (rules R16, R17). -/
theorem State.regWrite_offset (s : State) (r : Reg) (v : Word) : s.regWrite r.offset v = s.writeReg r v := by
  simp only [State.regWrite, Reg.at?_offset]

/-- A write at an offset that is no register's is ignored (rules R17, R37). -/
theorem State.regWrite_of_at?_none {off : Nat} (h : Reg.at? off = none) (s : State) (v : Word) :
    s.regWrite off v = s := by
  simp only [State.regWrite, h]

/-- Settles O14, by whether the offset is a register's, and then by the register. -/
theorem registerWritesFollowTheirAccessKind : Obligations.RegisterWritesFollowTheirAccessKind := by
  intro s off v rest ht hp hh ha hcmd
  rw [step_regWrite ht hp hh ha]
  obtain ⟨r, rfl, -⟩ | ⟨hoff, hnone⟩ := Reg.at?_cases off
  · rw [State.regWrite_offset]
    cases r with
    | cmd => exact absurd rfl hcmd
    | inLen | bitLen | tokLen => rfl
    | status | errDetail | errPos | outLen | trailBits | nsym | capIn | capBit | capOut | capTok => rfl
  · rw [State.regWrite_of_at?_none hnone]
    simp only [show off ≠ 0x10 from hoff .inLen, show off ≠ 0x14 from hoff .bitLen,
      show off ≠ 0x18 from hoff .tokLen, if_false]
    rfl

/-! ## NSYM -/

/-- The symbols of a list of distinct symbols, counted over all 256. -/
theorem countP_range_mem {l : List Byte} (hn : l.Nodup) :
    (List.range 256).countP (fun n => decide (Byte.ofNat n ∈ l)) = l.length := by
  have hperm : ((List.range 256).filter (fun n => decide (Byte.ofNat n ∈ l))).Perm (l.map BitVec.toNat) := by
    refine (List.perm_ext_iff_of_nodup (List.nodup_range.filter _)
      (hn.map (fun _ _ e => BitVec.eq_of_toNat_eq e))).2 (fun n => ?_)
    simp only [List.mem_filter, List.mem_range, decide_eq_true_eq, List.mem_map]
    constructor
    · rintro ⟨hlt, hm⟩
      exact ⟨_, hm, by simp [Byte.ofNat, Nat.mod_eq_of_lt hlt]⟩
    · rintro ⟨b, hb, rfl⟩
      exact ⟨b.isLt, by simpa [Byte.ofNat] using hb⟩
  rw [List.countP_eq_length_filter, hperm.length_eq, List.length_map]

/-- With the table of a tree of distinct symbols, `NSYM` is its number of leaves (rules R26, R74). -/
theorem State.nsym_of_ct_genCodes {s : State} {t : Tree} (hct : s.ct = genCodes t) (hn : t.leaves.Nodup) :
    s.nsym = t.leaves.length := by
  rw [State.nsym_eq_countP, hct, ← countP_range_mem hn]
  refine List.countP_congr (fun n _ => ?_)
  rw [entry_genCodes_isSome hn, decide_eq_true_eq]

/-- Settles O24: the table is the held tree's, whose symbols are distinct. -/
theorem nsymCountsTheLeavesAfterGenCodes : Obligations.NsymCountsTheLeavesAfterGenCodes := by
  intro s hl
  have hn := Tree.legal_nodup hl
  have hnsym : (State.complete { s with ct := genCodes s.root } .ok).nsym = s.root.leaves.length :=
    State.nsym_of_ct_genCodes rfl hn
  exact ⟨_, rfl, hnsym, hnsym.trans_le (Tree.leaves_length_le hn)⟩

/-! ## The lengths of DECODE -/

/-- The symbols emitted and the bits since the last one take no more than the bits read (rule R81). -/
theorem State.decodeWalk_length_add_le {s : State} {root : Tree} {n : Nat}
    (h : (s.decodeWalk root).stop = .ok n) : (s.decodeWalk root).out.length + n ≤ s.bitLen.toNat := by
  obtain ⟨-, hstop⟩ :=
    walkBits_bounds root s.cfg.outCap.toNat s.bits 0 root (m := 0) 0 (Nat.zero_le _)
  rw [State.decodeWalk] at h ⊢
  simpa only [h, State.bits_length, Nat.add_zero] using hstop

/-- `OUT_LEN` and `TRAIL_BITS` are within `bound` bits together, and both 0 when an error is reported. -/
def State.LengthsWithin (t : State) (bound : Nat) : Prop :=
  (t.errCode = 0 → t.outLen.toNat + t.trailBits.toNat ≤ bound) ∧
    (t.errCode ≠ 0 → t.outLen = 0 ∧ t.trailBits = 0)

theorem State.decodeFail_lengthsWithin (s : State) (r : CmdResult) (bound : Nat) :
    (s.decodeFail r).LengthsWithin bound :=
  ⟨fun _ => Nat.zero_le _, fun _ => ⟨rfl, rfl⟩⟩

theorem State.complete_ok_lengthsWithin {s : State} {bound : Nat}
    (h : s.outLen.toNat + s.trailBits.toNat ≤ bound) : (s.complete .ok).LengthsWithin bound :=
  ⟨fun _ => h, fun hne => absurd rfl hne⟩

theorem decodeHeld_lengthsWithin (s : State) (root : Tree) :
    (decodeHeld { s with root := root }).LengthsWithin s.bitLen.toNat := by
  by_cases hn : root = .nil
  · rw [decodeHeld, if_pos hn]
    exact State.complete_ok_lengthsWithin (by simp)
  · rw [decodeHeld_walk hn]
    cases hstop : (s.decodeWalk root).stop with
    | error r => exact State.decodeFail_lengthsWithin _ r _
    | ok n =>
      refine State.complete_ok_lengthsWithin ?_
      exact (Nat.add_le_add (toNat_wordOfNat_le _) (toNat_wordOfNat_le _)).trans
        (State.decodeWalk_length_add_le hstop)

/-- Settles O53, by the ways `DECODE` ends. -/
theorem decodedLengthIsWithinTheBits : Obligations.DecodedLengthIsWithinTheBits := by
  intro s
  obtain ⟨-, e⟩ | ⟨-, -, e⟩ | ⟨-, -, -, c, -, e⟩ | ⟨root, -, e⟩ := execDecode_cases s
  · exact ⟨_, e, State.decodeFail_lengthsWithin _ _ _⟩
  · exact ⟨_, e, State.decodeFail_lengthsWithin _ _ _⟩
  · exact ⟨_, e, State.decodeFail_lengthsWithin _ _ _⟩
  · exact ⟨_, e, decodeHeld_lengthsWithin s root⟩

/-! ## Which steps change the tree, the table and the lengths of DECODE -/

/-- What a move may change of the parameters (never), `ROOT`, `CT`, and the two lengths `DECODE` writes. -/
structure ChangesOnly (mayRoot mayTable mayLengths : Prop) (s t : State) : Prop where
  /-- The parameters stay (rules R5, R27). -/
  cfg : t.cfg = s.cfg
  /-- `ROOT` stays unless `mayRoot` (rule R29). -/
  root : t.root ≠ s.root → mayRoot
  /-- `CT` stays unless `mayTable` (rule R31). -/
  ct : t.ct ≠ s.ct → mayTable
  /-- `OUT_LEN` and `TRAIL_BITS` stay unless `mayLengths` (rules R24, R25). -/
  lengths : t.outLen ≠ s.outLen ∨ t.trailBits ≠ s.trailBits → mayLengths

/-- The fields `ChangesOnly` speaks of, as one value. -/
def State.heldData (s : State) : Config × Tree × CodeTable × Word × Word :=
  (s.cfg, s.root, s.ct, s.outLen, s.trailBits)

theorem ChangesOnly.of_heldData_eq {s t : State} (h : t.heldData = s.heldData)
    (mayRoot mayTable mayLengths : Prop) : ChangesOnly mayRoot mayTable mayLengths s t := by
  simp only [State.heldData, Prod.mk.injEq] at h
  obtain ⟨hcfg, hroot, hct, hout, htrail⟩ := h
  exact ⟨hcfg, (absurd hroot ·), (absurd hct ·), fun hne => hne.elim (absurd hout) (absurd htrail)⟩

/-! The host changes none of them (rules R17, R42). -/

theorem State.hostRead_heldData (s : State) (sp : Space) (off : Nat) :
    (s.hostRead sp off).2.heldData = s.heldData := by
  unfold State.hostRead
  split <;> rfl

theorem State.regWrite_heldData (s : State) (off : Nat) (v : Word) :
    (s.regWrite off v).heldData = s.heldData := by
  obtain ⟨r, rfl, -⟩ | ⟨-, hnone⟩ := Reg.at?_cases off
  · rw [State.regWrite_offset]
    cases r <;> rfl
  · rw [State.regWrite_of_at?_none hnone]

theorem State.hostWrite_heldData (s : State) (sp : Space) (off : Nat) (v : Word) :
    (s.hostWrite sp off v).heldData = s.heldData := by
  cases hp : s.pending with
  | some w =>
    rw [State.hostWrite_busy (by simp [hp])]
    rfl
  | none =>
    by_cases hs : sp = .reg
    · rw [hs, State.hostWrite_reg hp, State.regWrite_heldData]
    · rw [State.hostWrite_byte hp hs]
      simp [State.heldData]

theorem State.hostAccess_heldData (s : State) (a : Access) : (s.hostAccess a).heldData = s.heldData := by
  cases a with
  | read sp off width => exact s.hostRead_heldData sp off
  | write sp off width v => exact s.hostWrite_heldData sp off v

theorem hostTurn_heldData {s t : State} (h : hostTurn s = .next t) : t.heldData = s.heldData := by
  unfold hostTurn at h
  split at h
  · cases h
    rfl
  · split at h
    · cases h
      exact State.hostAccess_heldData _ _
    · cases h
  · simp only at h
    split at h
    · cases h
      exact s.hostRead_heldData _ _
    · cases h
      exact s.hostRead_heldData _ _

/-! The commands. -/

theorem execEncode_keeps {s t : State} (h : execEncode s = .next t) :
    t.cfg = s.cfg ∧ t.outLen = s.outLen ∧ t.trailBits = s.trailBits := by
  obtain ⟨-, e⟩ | ⟨-, i, -, -, -, -, e⟩ | ⟨-, -, e⟩ := execEncode_cases s <;>
    cases h.symm.trans e <;> simp

theorem decodeHeld_keeps (s : State) : (decodeHeld s).cfg = s.cfg ∧ (decodeHeld s).ct = s.ct := by
  by_cases hn : s.root = .nil
  · rw [decodeHeld, if_pos hn]
    exact ⟨rfl, rfl⟩
  · rw [show decodeHeld s = _ from decodeHeld_walk hn]
    split <;> simp

theorem execDecode_keeps {s t : State} (h : execDecode s = .next t) : t.cfg = s.cfg ∧ t.ct = s.ct := by
  obtain ⟨-, e⟩ | ⟨-, -, e⟩ | ⟨-, -, -, c, -, e⟩ | ⟨root, -, e⟩ := execDecode_cases s <;>
    cases h.symm.trans e
  · exact ⟨rfl, rfl⟩
  · exact ⟨rfl, rfl⟩
  · exact ⟨rfl, rfl⟩
  · exact decodeHeld_keeps { s with root := root }

theorem execDeserialize_keeps {s t : State} (h : execDeserialize s = .next t) :
    t.cfg = s.cfg ∧ t.ct = s.ct ∧ t.outLen = s.outLen ∧ t.trailBits = s.trailBits := by
  obtain ⟨-, e⟩ | ⟨-, c, -, e⟩ | ⟨-, r, -, e⟩ := execDeserialize_cases s <;> cases h.symm.trans e <;> simp

/-- A command by its word (rule R55), and which of these fields it may change. -/
theorem exec_changesOnly {i : Instr} {s t : State} (h : exec i s = .next t) :
    ChangesOnly (encode i = 1 ∨ encode i = 3 ∨ encode i = 4 ∨ encode i = 6)
      (encode i = 1 ∨ encode i = 5 ∨ encode i = 6) (encode i = 3) s t := by
  cases i with
  | encode =>
    obtain ⟨hcfg, hout, htrail⟩ := execEncode_keeps h
    exact ⟨hcfg, fun _ => .inl rfl, fun _ => .inl rfl, fun hne => hne.elim (absurd hout) (absurd htrail)⟩
  | serialize =>
    cases h
    exact .of_heldData_eq (by simp [State.heldData]) _ _ _
  | decode =>
    obtain ⟨hcfg, hct⟩ := execDecode_keeps h
    exact ⟨hcfg, fun _ => .inr (.inl rfl), (absurd hct ·), fun _ => rfl⟩
  | deserialize =>
    obtain ⟨hcfg, hct, hout, htrail⟩ := execDeserialize_keeps h
    exact ⟨hcfg, fun _ => .inr (.inr (.inl rfl)), (absurd hct ·),
      fun hne => hne.elim (absurd hout) (absurd htrail)⟩
  | genCodes =>
    cases h
    exact ⟨rfl, absurd rfl, fun _ => .inr (.inl rfl), fun hne => hne.elim (absurd rfl) (absurd rfl)⟩
  | clear =>
    cases h
    exact ⟨rfl, fun _ => .inr (.inr (.inr rfl)), fun _ => .inr (.inr rfl),
      fun hne => hne.elim (absurd rfl) (absurd rfl)⟩

/-- A legal word is the encoding of its command (rules R54, R60). -/
theorem eq_encode_of_decode {w : Word} {i : Instr} (h : decode w = .ok i) : w = encode i := by
  obtain ⟨hres, hop⟩ := decode_ok_iff.1 h
  rw [word_fields w, hres, decodeOp_some hop]
  rfl

/-- The core's move on a latched word; an illegal one changes none of these fields (rule R102). -/
theorem performWord_changesOnly {w : Word} {s t : State} (h : performWord w s = .next t) :
    ChangesOnly (w = 1 ∨ w = 3 ∨ w = 4 ∨ w = 6) (w = 1 ∨ w = 5 ∨ w = 6) (w = 3) s t := by
  cases hd : decode w with
  | ok i =>
    rw [performWord_of_ok hd] at h
    rw [eq_encode_of_decode hd]
    exact exec_changesOnly h
  | error e =>
    rw [performWord_of_error hd] at h
    cases h
    have hkeep : (illegalWord s).heldData = s.heldData := rfl
    exact .of_heldData_eq hkeep _ _ _

/-- Settles O57, by whose turn the step is. -/
theorem onlyTheNamedCommandsChangeTreeAndTable : Obligations.OnlyTheNamedCommandsChangeTreeAndTable := by
  intro s t hstep
  cases ht : s.turn with
  | host =>
    rw [step_host ht] at hstep
    obtain ⟨hcfg, hroot, hct, hlen⟩ := ChangesOnly.of_heldData_eq (hostTurn_heldData hstep) False False False
    exact ⟨hcfg, fun hne => (hroot hne).elim, fun hne => (hct hne).elim, fun hne => (hlen hne).elim⟩
  | core =>
    cases hp : s.pending with
    | none =>
      cases (step_core_none ht hp).symm.trans hstep
      exact ⟨rfl, absurd rfl, absurd rfl, fun hne => hne.elim (absurd rfl) (absurd rfl)⟩
    | some w =>
      rw [step_core ht hp] at hstep
      obtain ⟨hcfg, hroot, hct, hlen⟩ := performWord_changesOnly hstep
      exact ⟨hcfg, fun hne => .inr ⟨rfl, w, rfl, hroot hne⟩, fun hne => .inr ⟨rfl, w, rfl, hct hne⟩,
        fun hne => .inr ⟨rfl, congrArg some (hlen hne)⟩⟩
  | reset =>
    cases (step_reset ht).symm.trans hstep
    exact ⟨rfl, fun _ => .inl rfl, fun _ => .inl rfl, fun _ => .inl rfl⟩

/-! ## The fields of STATUS -/

theorem State.busy_iff (s : State) : s.busy = true ↔ s.pending ≠ none := by
  simp [State.busy, Option.isSome_iff_ne_none]

theorem State.err_iff (s : State) : s.err = true ↔ s.errCode ≠ 0 := bne_iff_ne

theorem State.treeValid_iff (s : State) : s.treeValid = true ↔ s.root ≠ .nil := bne_iff_ne

/-- Settles O12, from the layout of `STATUS`. -/
theorem statusFieldsReadTheirState : Obligations.StatusFieldsReadTheirState := by
  intro s
  obtain ⟨hbusy, hdone, herr, hviol, hlow, hcode, hmid, htree, hhigh⟩ :=
    statusWord_fields s.busy s.done s.err s.viol s.errCode s.treeValid
  rw [State.status, hbusy, herr, htree]
  exact ⟨s.busy_iff, hdone, s.err_iff, hviol, hlow, hcode, hmid, s.treeValid_iff, hhigh⟩

/-! ## Reset -/

/-- A buffer byte that nothing has written since reset is the configuration's free value (rules R35, R125). -/
theorem State.readByte_of_mem_nil {s : State} {sp : Space} {a : Nat} (hb : sp.isBuffer = true)
    (ha : a < s.cfg.size sp) (hm : s.mem sp = []) : s.readByte sp a = Config.unwrittenByte s.epoch sp a := by
  rw [State.readByte_buffer s hb, if_pos ha, State.bufferByte, hm]
  rfl

/-- Nothing is written right after reset (rule R35). -/
theorem State.resetWith_mem (c : Config) (sp : Space) : (State.resetWith c).mem sp = [] := by
  cases sp <;> rfl

theorem State.resetBlock_mem (s : State) (sp : Space) : s.resetBlock.mem sp = [] := by
  cases sp <;> rfl

/-- The view of an empty table reads 0 (rule R45). -/
theorem ctabByte_empty (a : Nat) : ctabByte (Vector.replicate 256 none) a = 0 := by
  rw [ctabByte, entry_empty]

theorem State.readByte_ctab_of_ct_empty {s : State} (h : s.ct = Vector.replicate 256 none) (a : Nat) :
    s.readByte .ctab a = 0 := by
  simp [State.readByte, h, ctabByte_empty]

/-- An empty table counts no symbol (rule R26). -/
theorem State.nsym_of_ct_empty {s : State} (h : s.ct = Vector.replicate 256 none) : s.nsym = 0 := by
  simp [State.nsym_eq_countP, h]

theorem countOf_empty (x : Byte) : countOf (Vector.replicate 256 0) x = 0 := by
  simp [countOf]

/-- `STATUS` is 0 right after reset (rules R18, R35). -/
theorem State.resetWith_status (c : Config) : (State.resetWith c).status = 0 := by
  show statusWord false false false false 0 false = 0
  decide

/-- Settles O20: the registers are 0 by definition, the tables are empty, and no byte is written. -/
theorem resetLeavesTheRulesValues : Obligations.ResetLeavesTheRulesValues := by
  intro c
  exact ⟨rfl, State.resetWith_status c, rfl, rfl, rfl, rfl, rfl, rfl, rfl, State.nsym_of_ct_empty rfl,
    rfl, rfl, rfl, rfl, rfl, countOf_empty, rfl, entry_empty, State.readByte_ctab_of_ct_empty rfl,
    fun sp _ hb ha => State.readByte_of_mem_nil hb ha (State.resetWith_mem c sp)⟩

/-- Settles O21: a step of reset resets the block, whose buffers then hold no written byte. -/
theorem resetFromEveryState : Obligations.ResetFromEveryState := by
  intro s ht
  exact ⟨_, step_reset ht, rfl,
    fun sp _ hb ha => State.readByte_of_mem_nil hb ha (State.resetBlock_mem s.spendTurn sp)⟩

/-- Settles O59: every clause of the invariant at reset is `State.Inv.resetWith`. -/
theorem resetMeetsTheInvariant : Obligations.ResetMeetsTheInvariant := by
  intro c hc
  exact State.Inv.resetWith hc

end Sys2Proof.Machine

/-! The family of 20_memory.md: the host's accesses to the six spaces (rules R36 to R45), the packed layout of
`BIT_BUF` (rules R39, R40) as `ENCODE` writes it and `DECODE` reads it, and the host's container (rules R51 to R53). -/

namespace Sys2Proof.Machine

/-! ## The host's step on an access -/

/-- A 1-byte access is admitted in every space but `REG` (rule R41). -/
theorem admitsWidth_byte {sp : Space} (h : sp ≠ .reg) (off : Nat) : admitsWidth sp off 1 = true := by
  cases sp with
  | reg => exact absurd rfl h
  | inBuf | bitBuf | tokBuf | outBuf | ctab => rfl

theorem admitsWidth_iff (sp : Space) (off width : Nat) :
    admitsWidth sp off width = true ↔ if sp = .reg then width = 4 ∧ off % 4 = 0 else width = 1 := by
  cases sp <;> simp [admitsWidth]

/-- The host's step on an admitted read while a command is pending (rule R44). -/
theorem step_read_busy {s : State} {sp : Space} {off width : Nat} {rest : List HostMove} (ht : s.turn = .host)
    (hp : s.pending.isSome = true) (hh : s.host = .access (.read sp off width) :: rest)
    (ha : (Access.read sp off width).admitted = true) :
    step s = .next (State.observe { s.spendTurn.withHost rest with draws := s.draws + 1 } sp off
      ((s.spendTurn.withHost rest).busyReadValue sp off)) := by
  have hbusy : (s.spendTurn.withHost rest).pending.isSome = true := hp
  rw [step_host_access ht hh ha, State.hostAccess, State.hostRead_busy hbusy]
  rfl

/-- The host's step on an admitted read while no command is pending. -/
theorem step_read_idle {s : State} {sp : Space} {off width : Nat} {rest : List HostMove} (ht : s.turn = .host)
    (hp : s.pending = none) (hh : s.host = .access (.read sp off width) :: rest)
    (ha : (Access.read sp off width).admitted = true) :
    step s = .next ((s.spendTurn.withHost rest).observe sp off (s.idleRead sp off)) := by
  have hidle : (s.spendTurn.withHost rest).pending = none := hp
  rw [step_host_access ht hh ha, State.hostAccess, State.hostRead_idle hidle, State.idleRead_congr (s := s) rfl]

/-- The host's step on an admitted write while a command is pending: dropped, whatever it is aimed at (rule R44). -/
theorem step_write_busy {s : State} {sp : Space} {off width : Nat} {v : Word} {rest : List HostMove}
    (ht : s.turn = .host) (hp : s.pending.isSome = true)
    (hh : s.host = .access (.write sp off width v) :: rest)
    (ha : (Access.write sp off width v).admitted = true) :
    step s = .next { s with sched := s.sched.tail, host := rest, viol := true } := by
  have hbusy : (s.spendTurn.withHost rest).pending.isSome = true := hp
  rw [step_host_access ht hh ha, State.hostAccess, State.hostWrite_busy hbusy]
  rfl

/-- The host's step on a 1-byte write while no command is pending (rule R41). -/
theorem step_writeByte {s : State} {sp : Space} {off : Nat} {v : Word} {rest : List HostMove}
    (ht : s.turn = .host) (hp : s.pending = none) (hs : sp ≠ .reg)
    (hh : s.host = .access (.write sp off 1 v) :: rest) :
    step s = .next ((s.spendTurn.withHost rest).writeByte sp off (v.setWidth 8)) := by
  have hidle : (s.spendTurn.withHost rest).pending = none := hp
  rw [step_host_access ht hh (admitsWidth_byte hs off), State.hostAccess, State.hostWrite_byte hidle hs]

/-! ## Accesses that do nothing -/

/-- An offset at or beyond the 64 bytes of `REG` is no register's (rules R16, R37). -/
theorem Reg.at?_of_le {off : Nat} (h : 64 ≤ off) : Reg.at? off = none := by
  obtain ⟨r, rfl, -⟩ | ⟨-, hnone⟩ := Reg.at?_cases off
  · exact absurd r.offset_lt (by omega)
  · exact hnone

/-- A read of any space but `REG` returns the byte, zero-extended (rule R42). -/
theorem State.idleRead_byte {sp : Space} (h : sp ≠ .reg) (s : State) (off : Nat) :
    s.idleRead sp off = (s.readByte sp off).toWord := by
  cases sp with
  | reg => exact absurd rfl h
  | inBuf | bitBuf | tokBuf | outBuf | ctab => rfl

/-- A read at or beyond the size of a space reads 0 (rule R37). -/
theorem State.idleRead_of_size_le {s : State} {sp : Space} {off : Nat} (h : s.cfg.size sp ≤ off) :
    s.idleRead sp off = 0 := by
  by_cases hs : sp = .reg
  · subst hs
    exact State.regRead_of_at?_none (Reg.at?_of_le h) s
  · have hbyte : s.readByte sp off = 0 := if_neg (by omega)
    rw [State.idleRead_byte hs, hbyte]
    rfl

/-- A byte write at or beyond the size of a space is ignored (rule R37). -/
theorem State.writeByte_of_size_le {s : State} {sp : Space} {off : Nat} (h : s.cfg.size sp ≤ off) (v : Byte) :
    s.writeByte sp off v = s := if_neg (by omega)

/-- A write at or beyond the size of a space is ignored while no command is pending (rule R37). -/
theorem State.hostWrite_of_size_le {s : State} {sp : Space} {off : Nat} (hp : s.pending = none)
    (h : s.cfg.size sp ≤ off) (v : Word) : s.hostWrite sp off v = s := by
  by_cases hs : sp = .reg
  · subst hs
    rw [State.hostWrite_reg hp, State.regWrite_of_at?_none (Reg.at?_of_le h)]
  · rw [State.hostWrite_byte hp hs, State.writeByte_of_size_le h]

/-- A byte write of `CTAB` is ignored (rule R43). -/
theorem State.writeByte_ctab (s : State) (off : Nat) (v : Byte) : s.writeByte .ctab off v = s := ite_self s

/-- Settles O16, by the space: its read is 0 and its write is ignored beyond its size. -/
theorem accessesBeyondASpaceReadZero : Obligations.AccessesBeyondASpaceReadZero := by
  intro s sp off width v rest ht hp hoff
  constructor
  · intro hh ha
    rw [step_read_idle ht hp hh ha, State.idleRead_of_size_le hoff]
    rfl
  · intro hh ha
    have hidle : (s.spendTurn.withHost rest).pending = none := hp
    rw [step_host_access ht hh ha, State.hostAccess, State.hostWrite_of_size_le hidle hoff]
    rfl

/-! ## A byte written to a buffer -/

theorem Space.ne_reg_of_isBuffer {sp : Space} (h : sp.isBuffer = true) : sp ≠ .reg := by
  rintro rfl
  cases h

/-- A byte write replaces the written bytes of the buffers and nothing else. -/
theorem State.writeByte_frame (s : State) (sp : Space) (a : Nat) (v : Byte) :
    s.writeByte sp a v = { s with
      inBuf := (s.writeByte sp a v).inBuf
      bitBuf := (s.writeByte sp a v).bitBuf
      tokBuf := (s.writeByte sp a v).tokBuf
      outBuf := (s.writeByte sp a v).outBuf } := by
  unfold State.writeByte
  split
  · cases sp <;> rfl
  · rfl

/-- A byte does not depend on whose turn it is or on the host's moves. -/
theorem State.readByte_spendTurn_withHost (s : State) (rest : List HostMove) (sp : Space) (a : Nat) :
    (s.spendTurn.withHost rest).readByte sp a = s.readByte sp a := by
  have hmem : (s.spendTurn.withHost rest).mem sp = s.mem sp := by cases sp <;> rfl
  exact congrFun (State.readByte_congr sp rfl rfl rfl hmem) a

/-- Settles O17: the step is one byte write, whose frame and read-back are the laws of `writeByte`. -/
theorem bufferWritesReadBack : Obligations.BufferWritesReadBack := by
  intro s sp off v rest ht hp hb hoff hh
  refine ⟨_, step_writeByte ht hp (Space.ne_reg_of_isBuffer hb) hh, State.writeByte_frame _ _ _ _, ?_, ?_⟩
  · rw [State.readByte_writeByte, if_pos ⟨rfl, hb, rfl, hoff⟩]
  · intro sp' a hne
    rw [State.readByte_writeByte, if_neg (by tauto), State.readByte_spendTurn_withHost]

/-! ## The view of the code table -/

/-- The symbol whose 64-byte entry holds an offset of `CTAB` (rule R45). -/
theorem symbol_of_entryOffset (sym : Byte) {j : Nat} (hj : j < 64) :
    Byte.ofNat ((64 * sym.toNat + j) / 64) = sym := by
  rw [show (64 * sym.toNat + j) / 64 = sym.toNat by omega, Byte.ofNat, BitVec.ofNat_toNat, BitVec.setWidth_eq]

/-- A byte of a symbol's 64-byte entry lies within `CTAB` (rule R36). -/
theorem State.readByte_ctab (s : State) (sym : Byte) {j : Nat} (hj : j < 64) :
    s.readByte .ctab (64 * sym.toNat + j) = ctabByte s.ct (64 * sym.toNat + j) := by
  have hsize : 64 * sym.toNat + j < 16384 := by
    have := sym.isLt
    omega
  exact if_pos hsize

theorem State.readByte_ctab_absent {s : State} {sym : Byte} (h : entry s.ct sym = none) {j : Nat} (hj : j < 64) :
    s.readByte .ctab (64 * sym.toNat + j) = 0 := by
  rw [State.readByte_ctab s sym hj, ctabByte, symbol_of_entryOffset sym hj, h]

theorem State.readByte_ctab_code {s : State} {sym : Byte} {c : BitString} (h : entry s.ct sym = some c) {j : Nat}
    (hj : j < 64) :
    s.readByte .ctab (64 * sym.toNat + j) =
      if j = 0 then Byte.ofNat c.length else if j < 32 then 0 else packByte (c.drop (8 * (j - 32))) := by
  have hmod : (64 * sym.toNat + j) % 64 = j := by omega
  rw [State.readByte_ctab s sym hj, ctabByte, symbol_of_entryOffset sym hj, h]
  simp only [hmod]

/-- Settles O19, by whether the symbol has a code and by the three parts of its entry. -/
theorem codeTableViewShowsTheEntry : Obligations.CodeTableViewShowsTheEntry := by
  intro s sym j hj
  cases he : entry s.ct sym with
  | none => exact State.readByte_ctab_absent he hj
  | some c =>
    simp only [State.readByte_ctab_code he hj]
    refine ⟨fun h0 => if_pos h0, fun h1 h31 => ?_, fun h32 i hi => ?_⟩
    · rw [if_neg (by omega), if_pos (by omega)]
    · rw [if_neg (by omega), if_neg (by omega), packByte_bit _ hi, getD_drop]

/-! ## Accesses while busy, admitted accesses and `CTAB` -/

/-- Settles O9: the drop is `step_write_busy`, and an idle write of `CMD` is an accept. -/
theorem writesWhileBusyAreDropped : Obligations.WritesWhileBusyAreDropped := by
  constructor
  · intro s sp off width v rest ht hp hh ha
    exact step_write_busy ht hp hh ha
  · intro s w rest ht hp hh
    refine ⟨_, step_regWrite ht hp hh rfl, ?_⟩
    rw [show 0x00 = Reg.cmd.offset from rfl, State.regWrite_offset]
    rfl

/-- Settles O10, by whether a command is pending. -/
theorem hostReadsHaveNoSideEffect : Obligations.HostReadsHaveNoSideEffect := by
  intro s sp off width rest ht hh ha
  by_cases hp : s.pending.isSome = true
  · rw [if_pos hp]
    refine ⟨_, step_read_busy ht hp hh ha, fun hnone => ?_⟩
    simp [hnone] at hp
  · have hidle : s.pending = none := by simpa using hp
    rw [if_neg hp]
    exact ⟨_, step_read_idle ht hidle hh ha, fun _ hs => State.idleRead_byte hs s off⟩

/-- Settles O11: the value read is a status word with `BUSY` 1 and the result fields 0. -/
theorem busyStatusReadShowsBusy : Obligations.BusyStatusReadShowsBusy := by
  intro s rest ht hp hh
  obtain ⟨hbusy, hdone, herr, hviol, hlow, hcode, hmid, -, hhigh⟩ :=
    statusWord_fields true false false s.viol 0 ((Config.busyRead s.draws).getLsbD 16)
  exact ⟨_, _, step_read_busy ht hp hh rfl, rfl, hbusy, hdone, herr, hviol, hlow, hcode, hmid, hhigh⟩

/-- The host's step on an access answers a next state exactly when the access is admitted (rule R41). -/
theorem step_next_iff_admitted {s : State} {a : Access} {rest : List HostMove} (ht : s.turn = .host)
    (hh : s.host = .access a :: rest) : (∃ t, step s = .next t) ↔ a.admitted = true := by
  cases ha : a.admitted with
  | true => exact iff_of_true ⟨_, step_host_access ht hh ha⟩ rfl
  | false =>
    rw [step_host_refused ht hh ha]
    simp

/-- Settles O15: a step that is not refused is of an admitted access. -/
theorem onlyAdmittedAccessesArePerformed : Obligations.OnlyAdmittedAccessesArePerformed := by
  intro s a rest ht hh
  constructor
  · rw [step_next_iff_admitted ht hh]
    cases a with
    | read sp off width => exact admitsWidth_iff sp off width
    | write sp off width v => exact admitsWidth_iff sp off width
  · cases ha : a.admitted with
    | true => exact .inr ⟨_, step_host_access ht hh ha⟩
    | false => exact .inl (step_host_refused ht hh ha)

/-- Settles O18, by whether a command is pending. -/
theorem codeTableSpaceIgnoresWrites : Obligations.CodeTableSpaceIgnoresWrites := by
  intro s off v rest ht hh
  constructor
  · intro hp
    rw [step_writeByte ht hp (by decide) hh, State.writeByte_ctab]
    rfl
  · intro hp
    exact step_write_busy ht hp hh rfl


/-! ## The packed layout is the loop of bit writes -/

/-- A packed byte depends on the first eight bits, missing ones read as 0 (rules R39, R40). -/
theorem packByte_congr {bs cs : BitString} (h : ∀ i < 8, bs.getD i false = cs.getD i false) :
    packByte bs = packByte cs := by
  refine BitVec.eq_of_getLsbD_eq (fun i hi => ?_)
  have hi7 : 7 - i < 8 := by omega
  rw [show i = 7 - (7 - i) by omega, packByte_bit bs hi7, packByte_bit cs hi7, h _ hi7]

theorem getD_append_pad (bs : BitString) (m i : Nat) :
    (bs ++ List.replicate m false).getD i false = bs.getD i false := by
  by_cases h : i < bs.length
  · exact List.getD_append _ _ _ _ h
  · rw [List.getD_append_right _ _ _ _ (by omega), List.getD_eq_default bs false (by omega)]
    rw [List.getD, List.getElem?_replicate]
    split <;> rfl

/-- The pad bits of the last byte are 0, so writing them out changes no packed byte (rule R40). -/
theorem packBits_append_pad {bs : BitString} {m : Nat} (h : (bs.length + m + 7) / 8 = (bs.length + 7) / 8) :
    packBits (bs ++ List.replicate m false) = packBits bs := by
  rw [packBits, packBits, List.length_append, List.length_replicate, h]
  refine List.map_congr_left (fun i _ => packByte_congr (fun j _ => ?_))
  rw [getD_drop, getD_drop, getD_append_pad]

/-- Eight bits are packed into one byte, the rest after it (rule R40). -/
theorem packBits_byte_append {byte : BitString} (h : byte.length = 8) (rest : BitString) :
    packBits (byte ++ rest) = packByte byte :: packBits rest := by
  have hlen : ((byte ++ rest).length + 7) / 8 = (rest.length + 7) / 8 + 1 := by
    rw [List.length_append]
    omega
  rw [packBits, hlen, List.range_succ_eq_map, List.map_cons, List.map_map]
  congr 1
  · refine packByte_congr (fun i hi => ?_)
    exact List.getD_append _ _ _ _ (by omega)
  · refine List.map_congr_left (fun i _ => ?_)
    rw [Function.comp_apply, List.drop_append, List.drop_eq_nil_of_le (by omega)]
    simp [h, Nat.mul_succ]

/-- A `BitWrite` into a byte just written changes that write (rule R39). -/
theorem State.bitWrite_writeByte (s : State) (k : Nat) (v : Byte) {j : Nat} (hj : j < 8) (b : Bool) :
    (s.writeByte .bitBuf k v).bitWrite (8 * k + j) b = s.writeByte .bitBuf k (setBit v (7 - j) b) := by
  have hdiv : (8 * k + j) / 8 = k := by omega
  have hmod : (8 * k + j) % 8 = j := by omega
  rw [State.bitWrite, hdiv, hmod, State.writeByte_writeByte]
  by_cases hk : k < s.cfg.size .bitBuf
  · rw [State.readByte_writeByte, if_pos ⟨rfl, rfl, rfl, hk⟩]
  · rw [State.writeByte_of_size_le (by omega), State.writeByte_of_size_le (by omega)]

/-- Eight `BitWrite`s from the first bit of a byte write the byte packed from them (rules R39, R40). -/
theorem State.bitWriteAll_byte (s : State) (k : Nat) {byte : BitString} (h : byte.length = 8) :
    s.bitWriteAll (8 * k) byte = s.writeByte .bitBuf k (packByte byte) := by
  match byte, h with
  | [b0, b1, b2, b3, b4, b5, b6, b7], _ =>
    have hfirst : s.bitWrite (8 * k) b0 = s.writeByte .bitBuf k (setBit (s.readByte .bitBuf k) 7 b0) := by
      rw [State.bitWrite, Nat.mul_div_cancel_left k (by omega), Nat.mul_mod_right]
    simp only [State.bitWriteAll, hfirst, Nat.add_assoc, Nat.reduceAdd]
    simp (disch := omega) only [State.bitWrite_writeByte]
    exact congrArg _ (setBit_all _ _ _ _ _ _ _ _ _)

/-- The packed bytes of whole bytes of bits, byte by byte (rules R39, R40). -/
theorem State.writeBytes_packBits_of_bytes {n : Nat} {bs : BitString} (h : bs.length = 8 * n) (s : State) (k : Nat) :
    s.writeBytes .bitBuf k (packBits bs) = s.bitWriteAll (8 * k) bs := by
  induction n generalizing bs s k with
  | zero =>
    obtain rfl := List.eq_nil_of_length_eq_zero h
    rfl
  | succ n ih =>
    have hbyte : (bs.take 8).length = 8 := by
      rw [List.length_take]
      omega
    have hrest : (bs.drop 8).length = 8 * n := by
      rw [List.length_drop]
      omega
    rw [← List.take_append_drop 8 bs, packBits_byte_append hbyte, State.writeBytes, ih hrest,
      State.bitWriteAll_append, State.bitWriteAll_byte s k hbyte, hbyte, Nat.mul_succ]

/-- Settles O46: the bits with their pad bits are whole bytes, each written by eight bit writes. -/
theorem packedWriteIsTheBitLoop : Obligations.PackedWriteIsTheBitLoop := by
  intro s bs _
  have hpacked := packBits_append_pad (bs := bs) (m := 8 * ((bs.length + 7) / 8) - bs.length) (by omega)
  rw [← hpacked]
  refine State.writeBytes_packBits_of_bytes (n := (bs.length + 7) / 8) ?_ s 0
  rw [List.length_append, List.length_replicate]
  omega

/-! ## What ENCODE leaves in `BIT_BUF` -/

/-- The bit-string `ENCODE` writes: the codes of the input bytes by the fresh table (rules R77, R78). -/
def State.encoded (s : State) : BitString := encodeBits (genCodes (build (freqCount s.inBytes))) s.inBytes

/-- `ENCODE` when its input and its bits fit (rule R77): all the state it leaves. -/
theorem execEncode_fits {s : State} (hin : s.inLen.toNat ≤ s.cfg.inCap.toNat)
    (hbits : s.encoded.length ≤ s.cfg.bitCap) :
    ∃ t, execEncode s = .next t ∧
      t = { s with
        freq := t.freq
        root := t.root
        ct := t.ct
        bitLen := t.bitLen
        bitBuf := t.bitBuf
        pending := none
        done := true
        errCode := 0
        errDetail := 0
        errPos := 0 } ∧
      t.ct = genCodes (build (freqCount s.inBytes)) ∧
      t.bitLen.toNat = s.encoded.length ∧
      t.readByte .bitBuf = (s.freshTables.writeBytes .bitBuf 0 (packBits s.encoded)).readByte .bitBuf := by
  obtain ⟨hlt, -⟩ | ⟨-, i, -, -, -, hlt, -⟩ | ⟨-, -, e⟩ := execEncode_cases s
  · omega
  · exact absurd hlt hbits.not_gt
  · refine ⟨_, e, ?_, by simp, ?_, ?_⟩
    · rw [State.writeBytes_eq_setMem]
      rfl
    · exact Nat.mod_eq_of_lt (hbits.trans_lt (bitCap_lt s.cfg))
    · exact State.readByte_congr_buffer rfl (by simp) (by simp) rfl

/-- Settles O43: the state `ENCODE` leaves, read back bit by bit and byte by byte. -/
theorem encodeWritesTheCodesInInputOrder : Obligations.EncodeWritesTheCodesInInputOrder := by
  intro s hin (hbits : s.encoded.length ≤ s.cfg.bitCap)
  have hfresh : s.freshTables.readByte .bitBuf = s.readByte .bitBuf := State.readByte_congr_buffer rfl rfl rfl rfl
  obtain ⟨t, e, hframe, hct, hlen, hbyte⟩ := execEncode_fits hin hbits
  have hbit := State.bitRead_congr hbyte
  refine ⟨t, e, hframe, hct, ?_, ?_, fun k hk hpad => ?_, fun a ha => ?_⟩
  · rw [hct]
    exact State.bits_writePacked s.freshTables hbits hbit hlen
  · rw [hlen, hct]
    exact encodeBits_length _ _
  · rw [hlen] at hk hpad
    rw [hbit, State.bitRead_writePacked s.freshTables hbits (by omega), List.getD_eq_default _ _ hk]
  · rw [hlen] at ha
    rw [hbyte, State.readByte_writeBytes _ rfl, packBits_length, if_neg (by omega), hfresh]

/-! ## What DECODE reads -/

/-- Two states that agree on what `DECODE` reads (rules R40, R81): the parameters, the held tree, the two lengths, the
bytes below `TOK_LEN` and the bits below `BIT_LEN`. -/
structure State.SameDecodeInput (s s' : State) : Prop where
  cfg : s'.cfg = s.cfg
  root : s'.root = s.root
  tokLen : s'.tokLen = s.tokLen
  bitLen : s'.bitLen = s.bitLen
  tokBytes : s'.tokBytes = s.tokBytes
  bits : s'.bits = s.bits

theorem State.SameDecodeInput.decodesWith {s s' : State} (h : s.SameDecodeInput s') {root : Tree}
    (hd : s.decodesWith root) : s'.decodesWith root := by
  rw [State.decodesWith, h.cfg, h.root, h.tokLen, h.bitLen, h.tokBytes]
  exact hd

theorem State.SameDecodeInput.decodeWalk {s s' : State} (h : s.SameDecodeInput s') (root : Tree) :
    s'.decodeWalk root = s.decodeWalk root := by
  rw [State.decodeWalk, State.decodeWalk, h.cfg, h.bits]

/-- `DECODE` decodes with one tree (rule R81). -/
theorem State.decodesWith_unique {s : State} {root root' : Tree} (h : s.decodesWith root)
    (h' : s.decodesWith root') : root' = root := by
  obtain ⟨-, -, ⟨h0, rfl⟩ | ⟨hne, hok⟩⟩ := h <;> obtain ⟨-, -, ⟨h0', rfl⟩ | ⟨hne', hok'⟩⟩ := h'
  · rfl
  · exact absurd h0 hne'
  · exact absurd h0' hne
  · exact Except.ok.inj (hok'.symm.trans hok)

/-- What `DECODE` reports: the tree it holds, the two lengths and the error fields (rules R81, R104). -/
def State.decodeReport (t : State) : Tree × Word × Word × BitVec 4 × BitVec 4 × Word :=
  (t.root, t.outLen, t.trailBits, t.errCode, t.errDetail, t.errPos)

/-- What `DECODE` reports with a tree, by how its walk ends (rule R81). -/
def WalkEnd.report (e : WalkEnd) (root : Tree) : Tree × Word × Word × BitVec 4 × BitVec 4 × Word :=
  match e.stop with
  | .ok since => (root, Word.ofNat e.out.length, Word.ofNat since, 0, 0, 0)
  | .error r => (root, 0, 0, r.code.bits, r.detail, Word.ofNat r.pos)

/-- `OUT_BUF` holds a byte sequence from offset 0. -/
def State.OutHolds (t : State) (out : List Byte) : Prop :=
  ∀ i (h : i < out.length), t.readByte .outBuf i = out[i]

/-- Bytes written from offset 0 that fit in `OUT_BUF` are held there. -/
theorem State.OutHolds.of_written {s t : State} {out : List Byte} {cap : Nat} (hfit : out.length ≤ cap)
    (h : ∀ a, t.readByte .outBuf a = if a < out.length ∧ a < cap then out.getD a 0 else s.readByte .outBuf a) :
    t.OutHolds out := by
  intro i hi
  rw [h, if_pos ⟨hi, by omega⟩]
  exact List.getD_eq_getElem _ _ hi

/-- `DECODE` with a tree (rule R81) reports how its walk ends, and `OUT_BUF` holds what the walk emitted. -/
theorem execDecode_walk {s : State} {root : Tree} (h : s.decodesWith root) (hn : root ≠ .nil) :
    ∃ t, execDecode s = .next t ∧ t.decodeReport = (s.decodeWalk root).report root ∧
      t.OutHolds (s.decodeWalk root).out := by
  obtain ⟨hfit, -⟩ := s.decodeWalk_bounds root
  cases hw : s.decodeWalk root with
  | mk out stop =>
    rw [hw] at hfit
    cases stop with
    | ok n =>
      obtain ⟨t, e, ht, hout⟩ := execDecode_walk_ok h hn hw
      exact ⟨t, e, by rw [ht]; rfl, .of_written hfit hout⟩
    | error r =>
      obtain ⟨t, e, ht, hout⟩ := execDecode_walk_error h hn hw
      exact ⟨t, e, by rw [ht]; rfl, .of_written hfit hout⟩

/-- `DECODE` without a tree (rule R82). -/
theorem execDecode_nil {s : State} (h : s.decodesWith .nil) :
    ∃ t, execDecode s = .next t ∧ t.decodeReport = (.nil, 0, s.bitLen, 0, 0, 0) :=
  ⟨_, (execDecode_of_decodesWith h).trans (congrArg _ (if_pos rfl)), rfl⟩

/-! The failures of `DECODE` before its walk (rule R81), by their causes. -/

theorem execDecode_capTok {s : State} (h : Config.tokCap < s.tokLen.toNat) :
    execDecode s = .next (s.decodeFail (.capacity .capTok 0)) := if_pos h

theorem execDecode_capBit {s : State} (htok : s.tokLen.toNat ≤ Config.tokCap) (h : s.cfg.bitCap < s.bitLen.toNat) :
    execDecode s = .next (s.decodeFail (.capacity .capBit 0)) :=
  (if_neg htok.not_gt).trans (if_pos h)

theorem execDecode_corrupt {s : State} (htok : s.tokLen.toNat ≤ Config.tokCap)
    (hbit : s.bitLen.toNat ≤ s.cfg.bitCap) (hne : s.tokLen ≠ 0) {c : Corrupt}
    (hc : deserialize s.tokBytes = .error c) :
    execDecode s = .next (State.decodeFail { s with root := .nil } (.corruptTree c)) := by
  rw [execDecode, if_neg htok.not_gt, if_neg hbit.not_gt, if_neg hne, hc]

/-- From states that agree on what it reads, `DECODE` reports the same and emits the same symbols (rules R40, R81). -/
theorem State.SameDecodeInput.execDecode {s s' : State} (h : s.SameDecodeInput s') :
    ∃ t t', execDecode s = .next t ∧ execDecode s' = .next t' ∧ t'.decodeReport = t.decodeReport ∧
      ∀ root, s.decodesWith root → root ≠ .nil →
        t.OutHolds (s.decodeWalk root).out ∧ t'.OutHolds (s.decodeWalk root).out := by
  have hfail : ∀ r, (s'.decodeFail r).decodeReport = (s.decodeFail r).decodeReport := fun r => by
    simp only [State.decodeReport, State.decodeFail_root, h.root]
    rfl
  obtain ⟨htok, e⟩ | ⟨htok, hbit, e⟩ | ⟨htok, hbit, hne, c, hc, e⟩ | ⟨root, hd, -⟩ := execDecode_cases s
  · refine ⟨_, _, e, execDecode_capTok (h.tokLen ▸ htok), hfail _, ?_⟩
    rintro root ⟨hle, -, -⟩
    omega
  · refine ⟨_, _, e, execDecode_capBit (h.tokLen ▸ htok) (h.cfg ▸ h.bitLen ▸ hbit), hfail _, ?_⟩
    rintro root ⟨-, hle, -⟩
    omega
  · refine ⟨_, _, e, execDecode_corrupt (h.tokLen ▸ htok) (h.cfg ▸ h.bitLen ▸ hbit) (h.tokLen ▸ hne)
      (h.tokBytes ▸ hc), rfl, ?_⟩
    rintro root ⟨-, -, ⟨h0, -⟩ | ⟨-, hok⟩⟩
    · exact absurd h0 hne
    · cases hc.symm.trans hok
  · by_cases hn : root = .nil
    · subst hn
      obtain ⟨t, e, hrep⟩ := execDecode_nil hd
      obtain ⟨t', e', hrep'⟩ := execDecode_nil (h.decodesWith hd)
      refine ⟨t, t', e, e', by rw [hrep, hrep', h.bitLen], fun root' hd' hn' => ?_⟩
      exact absurd (State.decodesWith_unique hd hd') hn'
    · obtain ⟨t, e, hrep, hout⟩ := execDecode_walk hd hn
      obtain ⟨t', e', hrep', hout'⟩ := execDecode_walk (h.decodesWith hd) hn
      rw [h.decodeWalk] at hrep' hout'
      refine ⟨t, t', e, e', hrep'.trans hrep.symm, fun root' hd' _ => ?_⟩
      obtain rfl := State.decodesWith_unique hd hd'
      exact ⟨hout, hout'⟩

/-- Settles O55: the two states agree on the token bytes and the bits, so on all that `DECODE` reads. -/
theorem decodeIgnoresBitsBeyondBitLen : Obligations.DecodeIgnoresBitsBeyondBitLen := by
  intro s s' hcfg hroot htok hbit htoks hbits
  have hsame : s.SameDecodeInput s' :=
    { cfg := hcfg
      root := hroot
      tokLen := htok
      bitLen := hbit
      tokBytes := by
        rw [State.tokBytes, htok]
        exact State.bytesOf_congr htoks
      bits := by
        rw [State.bits, hbit]
        exact List.map_congr_left (fun k hk => hbits k (List.mem_range.1 hk)) }
  obtain ⟨t, t', e, e', hreport, hout⟩ := hsame.execDecode
  simp only [State.decodeReport, Prod.mk.injEq] at hreport
  obtain ⟨h1, h2, h3, h4, h5, h6⟩ := hreport
  refine ⟨t, t', e, e', h1, h2, h3, h4, h5, h6, fun root hd hn i hi => ?_⟩
  obtain ⟨ht, ht'⟩ := hout root hd hn
  exact ⟨ht i hi, ht' i hi⟩

/-! ## The container -/

/-- The digits of a little-endian field of `k` bytes (rule R51). -/
theorem leValue_digits (k n : Nat) :
    leValue ((List.range k).map (fun i => Byte.ofNat (n / 256 ^ i))) = n % 256 ^ k := by
  induction k generalizing n with
  | zero => simp [leValue, Nat.mod_one]
  | succ k ih =>
    have htail : (List.range k).map ((fun i => Byte.ofNat (n / 256 ^ i)) ∘ Nat.succ) =
        (List.range k).map (fun i => Byte.ofNat (n / 256 / 256 ^ i)) := by
      refine List.map_congr_left (fun i _ => ?_)
      rw [Function.comp_apply, Nat.pow_succ', Nat.div_div_eq_div_mul]
    rw [List.range_succ_eq_map, List.map_cons, List.map_map, leValue, htail, ih, Nat.pow_succ',
      Nat.mod_mul]
    simp [Byte.ofNat]

/-- An 8-byte field reads back (rule R51). -/
theorem leValue_le64 {n : Nat} (h : n < 2 ^ 64) : leValue (le64 n) = n := by
  rw [le64, leValue_digits, Nat.mod_eq_of_lt (by omega)]

@[simp] theorem le64_length (n : Nat) : (le64 n).length = 8 := by simp [le64]

theorem Container.bytes_length (c : Container) : c.bytes.length = 24 + c.tree.length + c.packed.length := by
  simp only [Container.bytes, List.length_append, le64_length]
  omega

/-! What follows each offset of a container (rule R51). -/

theorem Container.drop_tree (c : Container) :
    c.bytes.drop 8 = c.tree ++ (le64 c.packed.length ++ (le64 c.bitCount ++ c.packed)) := by
  simp only [Container.bytes, List.append_assoc]
  exact List.drop_left' (le64_length _)

theorem Container.drop_packedLength (c : Container) :
    c.bytes.drop (8 + c.tree.length) = le64 c.packed.length ++ (le64 c.bitCount ++ c.packed) := by
  rw [← List.drop_drop, c.drop_tree, List.drop_left]

theorem Container.drop_bitCount (c : Container) :
    c.bytes.drop (16 + c.tree.length) = le64 c.bitCount ++ c.packed := by
  rw [show 16 + c.tree.length = 8 + c.tree.length + 8 by omega, ← List.drop_drop, c.drop_packedLength]
  exact List.drop_left' (le64_length _)

theorem Container.drop_packed (c : Container) : c.bytes.drop (24 + c.tree.length) = c.packed := by
  rw [show 24 + c.tree.length = 16 + c.tree.length + 8 by omega, ← List.drop_drop, c.drop_bitCount]
  exact List.drop_left' (le64_length _)

/-- The first field of a leading part that holds it whole. -/
theorem Container.treeLength_take {c : Container} (h : c.tree.length < 2 ^ 64) {m : Nat} (hm : 8 ≤ m) :
    leValue ((c.bytes.take m).take 8) = c.tree.length := by
  rw [List.take_take, Nat.min_eq_left hm]
  simp only [Container.bytes, List.append_assoc]
  rw [List.take_left' (le64_length _), leValue_le64 h]

/-- The second field of a leading part that holds it whole. -/
theorem Container.packedLength_take {c : Container} (h : c.packed.length < 2 ^ 64) {m : Nat}
    (hm : 24 + c.tree.length ≤ m) :
    leValue (((c.bytes.take m).drop (8 + c.tree.length)).take 8) = c.packed.length := by
  rw [List.drop_take, List.take_take, Nat.min_eq_left (by omega), c.drop_packedLength,
    List.take_left' (le64_length _), leValue_le64 h]

/-- A container within the bounds of rule R53 reads back. -/
theorem readContainer_bytes {cfg : Config} {c : Container} (htree : c.tree.length ≤ Config.tokCap)
    (hpacked : c.packed.length ≤ cfg.size .bitBuf) (hbits : c.bitCount ≤ 8 * c.packed.length) :
    readContainer cfg c.bytes = some c := by
  have hsize : cfg.size .bitBuf < 2 ^ 29 := cfg.bitBufBytes.isLt
  have hcap : Config.tokCap < 2 ^ 64 := by decide
  have hlen := c.bytes_length
  have ht : leValue (c.bytes.take 8) = c.tree.length := by
    have h := c.treeLength_take (m := c.bytes.length) (by omega) (by omega)
    rwa [List.take_length] at h
  have hp : leValue ((le64 c.packed.length ++ (le64 c.bitCount ++ c.packed)).take 8) = c.packed.length := by
    rw [List.take_left' (le64_length _), leValue_le64 (by omega)]
  have hb : leValue ((le64 c.bitCount ++ c.packed).take 8) = c.bitCount := by
    rw [List.take_left' (le64_length _), leValue_le64 (by omega)]
  rw [readContainer]
  simp only [ht, c.drop_packedLength, hp, c.drop_bitCount, hb, c.drop_tree, c.drop_packed, List.take_left,
    List.take_length]
  rw [if_neg (by omega), if_neg (by omega), if_neg (by omega), if_neg (by omega), if_neg (by omega)]

/-- Bytes that end before the packed bytes do are rejected (rule R53). -/
theorem readContainer_of_short {cfg : Config} {bytes : List Byte}
    (h : bytes.length < 24 + leValue (bytes.take 8) +
      leValue ((bytes.drop (8 + leValue (bytes.take 8))).take 8)) :
    readContainer cfg bytes = none := by
  rw [readContainer]
  simp only [if_pos h, ite_self]

/-- A container cut short is not accepted: it ends before its first field, before its third, or in the packed
bytes (rule R53). -/
theorem readContainer_take {cfg : Config} {c : Container} (htree : c.tree.length < 2 ^ 64)
    (hpacked : c.packed.length < 2 ^ 64) {m : Nat} (hm : m < c.bytes.length) :
    readContainer cfg (c.bytes.take m) = none := by
  have hlen : (c.bytes.take m).length = m := List.length_take_of_le hm.le
  rw [c.bytes_length] at hm
  refine readContainer_of_short ?_
  rw [hlen]
  by_cases h8 : m < 8
  · omega
  · rw [Container.treeLength_take htree (by omega)]
    by_cases h24 : m < 24 + c.tree.length
    · omega
    · rw [Container.packedLength_take hpacked (by omega)]
      exact hm

/-- Settles O60: the container a host writes is within the bounds of rule R53. -/
theorem containersReadBack : Obligations.ContainersReadBack := by
  intro s htok hbit
  have htree : s.container.tree.length = s.tokLen.toNat := State.bytesOf_length _ _ _
  have hpacked : s.container.packed.length = (s.bitLen.toNat + 7) / 8 := State.bytesOf_length _ _ _
  have hcount : s.container.bitCount = s.bitLen.toNat := rfl
  have hbytes : s.bitLen.toNat < 2 ^ 32 := s.bitLen.isLt
  rw [Config.bitCap] at hbit
  constructor
  · refine readContainer_bytes ?_ ?_ ?_
    · rw [htree]
      exact htok
    · rw [hpacked, s.size_bitBuf]
      omega
    · rw [hcount, hpacked]
      omega
  · intro n hn
    exact readContainer_take (by omega) (by omega) hn

end Sys2Proof.Machine

/-! The family of 30_encoding.md: the command word (rules R54, R55, R60), accept and the core's step (rules R57 to R59,
R102, R127), `WAIT` (rule R65), the positions of the deserializer's failures (rules R93 to R97), and what `ENCODE`
depends on and `DECODE` writes (rules R56, R77, R81). -/

namespace Sys2Proof.Machine

/-! ## Command words -/

theorem decode_encode (i : Instr) : decode (encode i) = .ok i := by
  cases i <;> rfl

/-- The opcodes in use are 1 to 6 (rule R55). -/
theorem opcode_bounds (i : Instr) : 1 ≤ (opcode i).toNat ∧ (opcode i).toNat ≤ 6 := by
  cases i <;> decide

/-- The reserved bits of a command's word are 0, so its value is its opcode (rule R54). -/
theorem encode_toNat (i : Instr) : (encode i).toNat = (opcode i).toNat := by
  cases i <;> rfl

/-- Every word from 1 to 6 is a command's (rule R55). -/
theorem exists_eq_encode {w : Word} (h1 : 1 ≤ w.toNat) (h6 : w.toNat ≤ 6) : ∃ i, w = encode i := by
  have hw : w = BitVec.ofNat 32 w.toNat := by simp
  generalize w.toNat = n at *
  subst hw
  interval_cases n
  · exact ⟨.encode, rfl⟩
  · exact ⟨.serialize, rfl⟩
  · exact ⟨.decode, rfl⟩
  · exact ⟨.deserialize, rfl⟩
  · exact ⟨.genCodes, rfl⟩
  · exact ⟨.clear, rfl⟩

/-- The legal words are 1 to 6 (rule R60). -/
theorem exists_decode_ok_iff (w : Word) : (∃ i, decode w = .ok i) ↔ 1 ≤ w.toNat ∧ w.toNat ≤ 6 := by
  constructor
  · rintro ⟨i, h⟩
    rw [eq_encode_of_decode h, encode_toNat]
    exact opcode_bounds i
  · rintro ⟨h1, h6⟩
    obtain ⟨i, rfl⟩ := exists_eq_encode h1 h6
    exact ⟨i, decode_encode i⟩

theorem exists_decode_error {w : Word} (h : ¬ ∃ i, decode w = .ok i) : ∃ e, decode w = .error e := by
  cases hd : decode w with
  | ok i => exact absurd ⟨i, hd⟩ h
  | error e => exact ⟨e, rfl⟩

/-- Settles O2: a legal word is its command's encoding, and these encodings are the words 1 to 6. -/
theorem onlySixWordsAreCommands : Obligations.OnlySixWordsAreCommands := by
  intro w
  exact ⟨exists_decode_ok_iff w, fun _ => eq_encode_of_decode⟩

/-- Settles O1: the six words are the encodings of the six commands, whose opcodes are 1 to 6. -/
theorem commandWordsDecodeToTheirCommands : Obligations.CommandWordsDecodeToTheirCommands := by
  refine ⟨decode_encode .encode, decode_encode .serialize, decode_encode .decode, decode_encode .deserialize,
    decode_encode .genCodes, decode_encode .clear, fun i _ => decode_encode i, fun w hop => ?_⟩
  refine exists_decode_error ?_
  rintro ⟨i, hi⟩
  obtain ⟨-, hop'⟩ := decode_ok_iff.1 hi
  obtain ⟨h1, h6⟩ := opcode_bounds i
  rw [← decodeOp_some hop', opField] at h1 h6
  obtain h0 | h7 := hop
  · simp [h0] at h1
  · omega

/-! ## Accept and the core's step -/

/-- Settles O4: a word outside 1 to 6 is no command, so it is performed as `ILLEGAL_CMD`. -/
theorem illegalWordsCompleteWithIllegalCmd : Obligations.IllegalWordsCompleteWithIllegalCmd := by
  intro s w ht hp hw
  obtain ⟨e, he⟩ := exists_decode_error (mt (exists_decode_ok_iff w).1 hw)
  rw [step_core ht hp, performWord_of_error he]
  rfl

/-- The core's step on any word completes, without the input side or the outside world changing (rules R58, R102). -/
theorem performWord_completes (w : Word) (s : State) :
    ∃ t, performWord w s = .next t ∧ t.pending = none ∧ t.done = true ∧ t.viol = s.viol ∧ t.cfg = s.cfg ∧
      t.inLen = s.inLen ∧ t.inBuf = s.inBuf ∧ t.host = s.host ∧ t.sched = s.sched := by
  cases hd : decode w with
  | ok i =>
    rw [performWord_of_ok hd]
    obtain ⟨t, e, hp, hdone, hviol, hcfg, hlen, hbuf, -, -, hhost, hsched, -⟩ := exec_completes i s
    exact ⟨t, e, hp, hdone, hviol, hcfg, hlen, hbuf, hhost, hsched⟩
  | error e => exact ⟨_, performWord_of_error hd s, rfl, rfl, rfl, rfl, rfl, rfl, rfl, rfl⟩

/-- With no turn listed an enabled core step is taken (rule R127, log entry 5). -/
theorem State.turn_core_of_sched_nil {s : State} (hs : s.sched = []) (hp : s.pending.isSome = true) :
    s.turn = .core := by
  simp [State.turn, hs, State.busy, hp]

/-- With no turn listed and no command pending the host moves (log entry 5). -/
theorem State.turn_host_of_sched_nil {s : State} (hs : s.sched = []) (hp : s.pending = none) :
    s.turn = .host := by
  simp [State.turn, hs, State.busy, hp]

theorem State.turn_of_sched_cons {s : State} {a : Turn} {rest : List Turn} (hs : s.sched = a :: rest) :
    s.turn = a := by
  simp [State.turn, hs]

/-- Settles O5: the turn is the core's, and every word completes. -/
theorem pendingCommandIsPerformed : Obligations.PendingCommandIsPerformed := by
  intro s hs hp
  obtain ⟨w, hw⟩ := Option.isSome_iff_exists.1 hp
  rw [step_core (State.turn_core_of_sched_nil hs hp) hw]
  obtain ⟨t, e, hidle, hdone, hviol, -⟩ := performWord_completes w s.spendTurn
  exact ⟨t, e, hidle, hdone, hviol⟩

/-- The low fields of `STATUS` right after an accept (rules R18, R57), whatever tree is held. -/
theorem statusWord_accepted : ∀ tree : Bool,
    (statusWord true false false false 0 tree).extractLsb' 0 4 = 0b0001#4 ∧
      (statusWord true false false false 0 tree).extractLsb' 8 4 = 0#4 := by
  decide

/-- Settles O8: the step is a write of the register `CMD`, which is an accept. -/
theorem cmdWriteLatchesTheCommand : Obligations.CmdWriteLatchesTheCommand := by
  intro s w rest ht hp hh
  refine ⟨_, step_regWrite ht hp hh rfl, ?_⟩
  rw [show 0x00 = Reg.cmd.offset from rfl, State.regWrite_offset]
  exact ⟨rfl, statusWord_accepted s.treeValid⟩

/-! ## WAIT -/

/-- A run is its first step, then the rest. -/
theorem run_succ_of_step {s t : State} (h : step s = .next t) (k : Nat) :
    Host.Core.run core (k + 1) s = Host.Core.run core k t := by
  have hstep : core.step s = .next t := h
  simp only [Host.Core.run, hstep]

/-- With no turn listed, the core performs the latched command and the next poll ends the wait (rules R65, R127). -/
theorem run_wait_command {s : State} {w : Word} {rest : List HostMove} (hp : s.pending = some w)
    (hh : s.host = .wait :: rest) (hs : s.sched = []) :
    ∃ t, Host.Core.run core 2 s = .next t ∧ t.pending = none ∧ t.done = true ∧ t.host = rest ∧
      t.cfg = s.cfg ∧ t.inLen = s.inLen ∧ t.inBuf = s.inBuf := by
  have hcore := step_core (State.turn_core_of_sched_nil hs (by simp [hp])) hp
  obtain ⟨u, e, hidle, hdone, -, hcfg, hlen, hbuf, hhost, hsched⟩ := performWord_completes w s.spendTurn
  have hnil : u.sched = [] := by simp [hsched, hs]
  have hpoll := step_wait_idle (State.turn_host_of_sched_nil hnil hidle) (hhost.trans hh) hidle
  rw [State.hostRead_idle (s := u.spendTurn) hidle] at hpoll
  rw [run_succ_of_step (hcore.trans e), run_succ_of_step hpoll]
  exact ⟨_, rfl, hidle, hdone, rfl, hcfg, hlen, hbuf⟩

/-- Settles O6, by induction on the number of the host's turns: each is a poll that reads `BUSY` 1 and keeps the
command, the wait and the input. -/
theorem waitEndsAfterTheCommand : Obligations.WaitEndsAfterTheCommand := by
  intro s w rest n hp hh hs
  induction n generalizing s with
  | zero => exact run_wait_command hp hh hs
  | succ n ih =>
    rw [List.replicate_succ] at hs
    have hbusy : s.pending.isSome = true := by simp [hp]
    have hpoll := step_wait_busy (State.turn_of_sched_cons hs) hh hbusy
    rw [State.hostRead_busy (s := s.spendTurn) hbusy] at hpoll
    rw [run_succ_of_step hpoll]
    exact ih _ hp hh (congrArg List.tail hs)

/-! ## The positions of the deserializer's failures -/

/-- Reading one subtree never reports a trailing byte (rules R90, R97): its own failures are five other ones, and the
failure of a child is passed on. -/
theorem parseSub_cause_ne_trailing {n : Nat} {isRoot : Bool} {toks : List Byte} {pos : Nat} {seen : List Byte}
    {c : Corrupt} (h : parseSub n isRoot toks pos seen = .error c) : c.cause ≠ .trailing := by
  fun_induction parseSub n isRoot toks pos seen with
  | case1 | case2 | case3 | case4 | case5 | case6 =>
    cases h
    simp
  | case7 => cases h
  | case8 _ _ _ _ _ _ _ _ _ hl ih =>
    cases h
    exact ih hl
  | case9 _ _ _ _ _ _ _ _ _ _ _ hr _ ih =>
    cases h
    exact ih hr
  | case10 => cases h

/-- A root leaf is the first byte's failure (rule R95). -/
theorem parseTree_rootLeaf (rest : List Byte) :
    parseTree (markerLeaf :: rest) = .error ⟨.rootLeaf, 0⟩ := by
  rw [parseTree, parseSub_rootLeaf]

/-- The parse fails within its subtree, or at a byte after a whole one, which is a tree's tokens (rules R90, R97). -/
theorem parseTree_error_cases {toks : List Byte} {c : Corrupt} (h : parseTree toks = .error c) :
    parseSub (toks.length + 1) true toks 0 [] = .error c ∨
      ∃ p, parseSub (toks.length + 1) true toks 0 [] = .ok p ∧ p.rest ≠ [] ∧ c = ⟨.trailing, p.pos⟩ := by
  unfold parseTree at h
  split at h
  · rename_i c' hp
    cases h
    exact .inl hp
  · rename_i p hp
    split at h
    · rename_i hrest
      cases h
      exact .inr ⟨p, hp, hrest, rfl⟩
    · cases h

theorem scanTokens_trailing {toks : List Byte} (h : toks ≠ []) (pos : Nat) (seen : List Byte) :
    scanTokens toks 0 pos seen = .error ⟨.trailing, pos⟩ := by
  cases toks with
  | nil => exact absurd rfl h
  | cons m rest => rw [scanTokens]

/-- A failure of the parse is the failure of the scan, unless the root is a leaf (rule R98). -/
theorem scanTokens_of_parseTree_error {toks : List Byte} {c : Corrupt} (h0 : toks[0]? ≠ some markerLeaf)
    (h : parseTree toks = .error c) : scanTokens toks 1 0 [] = .error c := by
  rw [scanTokens_parseSub (Nat.lt_succ_self _), ← parseSub_root h0]
  obtain hp | ⟨p, hp, hrest, rfl⟩ := parseTree_error_cases h
  · rw [hp]
  · rw [hp]
    exact scanTokens_trailing hrest _ _

/-- The tokens a parsed root has read are a tree's (rules R90, R99). -/
theorem deserialize_of_parseSub_root {n : Nat} {toks : List Byte} {p : Parsed}
    (h : parseSub n true toks 0 [] = .ok p) : deserialize (toks.take p.pos) = .ok p.tree := by
  have hparsed := parseSub_ok h
  obtain ⟨l, r, ht⟩ := hparsed.internal rfl
  have hfull := hparsed.full
  have hnodup := hparsed.nodup List.nodup_nil
  rw [hparsed.seen_eq, List.append_nil, List.nodup_reverse] at hnodup
  rw [hparsed.toks_eq, hparsed.pos_eq, Nat.zero_add, List.take_left]
  rw [ht] at hfull hnodup ⊢
  rw [Tree.full, Bool.and_eq_true] at hfull
  exact deserialize_serialize (Tree.legal_internal hfull.1 hfull.2 hnodup)

/-- The bytes before a trailing one are a tree's (rules R90, R97). -/
theorem deserialize_take_of_trailing {toks : List Byte} {pos : Nat}
    (h : parseTree toks = .error ⟨.trailing, pos⟩) : ∃ t, deserialize (toks.take pos) = .ok t := by
  obtain hp | ⟨p, hp, -, hc⟩ := parseTree_error_cases h
  · exact absurd rfl (parseSub_cause_ne_trailing hp)
  · cases hc
    exact ⟨p.tree, deserialize_of_parseSub_root hp⟩

/-- A failure of the deserializer is one of its general case: the empty sequence and a wrapper's are accepted (rules
R91, R92). -/
theorem parseTree_of_deserialize_error {toks : List Byte} {c : Corrupt} (h : deserialize toks = .error c) :
    parseTree toks = .error c := by
  rwa [← deserialize_eq_parseTree]
  · rintro rfl
    cases h
  · rintro s rfl
    rw [deserialize_wrapper] at h
    cases h

/-- Settles O34: a root leaf fails at the first byte; every other failure is the scan's, which says what was read
before it. -/
theorem corruptPositionsNameTheOffendingByte : Obligations.CorruptPositionsNameTheOffendingByte := by
  intro toks c h
  have hparse := parseTree_of_deserialize_error h
  by_cases h0 : toks[0]? = some markerLeaf
  · obtain ⟨rest, rfl⟩ : ∃ rest, toks = markerLeaf :: rest := by
      cases toks with
      | nil => cases h0
      | cons m rest => exact ⟨rest, by simpa using h0⟩
    cases (parseTree_rootLeaf rest).symm.trans hparse
    exact ⟨rfl, rfl⟩
  · have hscan := scanTokens_error le_rfl [] rfl rfl (by simp) (scanTokens_of_parseTree_error h0 hparse)
    obtain ⟨cause, pos⟩ := c
    cases cause with
    | badMarker | truncLeaf | truncSubtree | dupSymbol => exact hscan
    | trailing => exact ⟨hscan, deserialize_take_of_trailing hparse⟩
    | rootLeaf => exact hscan.elim

/-! ## What ENCODE depends on -/

/-- What `ENCODE` leaves that a later command or the host can see of it: the three tables, the bits and the error
fields (rules R77, R80, R104). -/
abbrev EncodeReport := FreqTable × Tree × CodeTable × Word × BitString × BitVec 4 × BitVec 4 × Word

def State.encodeReport (t : State) : EncodeReport :=
  (t.freq, t.root, t.ct, t.bitLen, t.bits, t.errCode, t.errDetail, t.errPos)

/-- What `ENCODE` leaves, from the capacity of `BIT_BUF` and the input bytes alone (rules R77, R78). -/
def encodeReportOf (cap : Nat) (bytes : List Byte) : EncodeReport :=
  let freq := freqCount bytes
  let root := build freq
  let ct := genCodes root
  match firstPast ct cap bytes 0 0 with
  | some i => (freq, root, ct, 0, [], 2, 2, Word.ofNat i)
  | none =>
    let bs := encodeBits ct bytes
    (freq, root, ct, Word.ofNat bs.length, bs, 0, 0, 0)

/-- The bits `ENCODE` writes are the ones its length register then selects (rules R77, R78). -/
theorem State.bits_of_encoded_written {s : State} (hfit : s.encoded.length ≤ s.cfg.bitCap) :
    (State.complete { s.freshTables.writeBytes .bitBuf 0 (packBits s.encoded) with
      bitLen := Word.ofNat s.encoded.length } .ok).bits = s.encoded :=
  State.bits_writePacked s.freshTables hfit
    (State.bitRead_congr (State.readByte_congr_buffer rfl (by simp) (by simp) rfl))
    (Nat.mod_eq_of_lt (hfit.trans_lt (bitCap_lt s.cfg)))

theorem State.encodeReport_of_encoded_written {s : State} (hfit : s.encoded.length ≤ s.cfg.bitCap) :
    (State.complete { s.freshTables.writeBytes .bitBuf 0 (packBits s.encoded) with
      bitLen := Word.ofNat s.encoded.length } .ok).encodeReport =
      (freqCount s.inBytes, build (freqCount s.inBytes), genCodes (build (freqCount s.inBytes)),
        Word.ofNat s.encoded.length, s.encoded, 0, 0, 0) := by
  rw [State.encodeReport, State.bits_of_encoded_written hfit]
  simp [CmdResult.code, ErrCode.bits, CmdResult.detail, CmdResult.pos]

/-- An `ENCODE` whose input fits leaves what `encodeReportOf` says, by whether its bits fit (rule R77). -/
theorem execEncode_report {s : State} (hin : s.inLen.toNat ≤ s.cfg.inCap.toNat) :
    ∃ t, execEncode s = .next t ∧ t.encodeReport = encodeReportOf s.cfg.bitCap s.inBytes := by
  rw [execEncode, if_neg hin.not_gt]
  simp only [State.inBytes_freshTables, State.freshTables_cfg, State.freshTables_ct, encodeReportOf]
  cases hpast : firstPast (genCodes (build (freqCount s.inBytes))) s.cfg.bitCap s.inBytes 0 0 with
  | some i => exact ⟨_, rfl, rfl⟩
  | none =>
    have hfit : s.encoded.length ≤ s.cfg.bitCap := by
      simpa [State.encoded] using (firstPast_none s.inBytes 0 0 (Nat.zero_le _)).1 hpast
    exact ⟨_, rfl, State.encodeReport_of_encoded_written hfit⟩

/-- Settles O45: what `ENCODE` leaves is a function of the capacity and the input bytes. -/
theorem encodeDependsOnItsInputOnly : Obligations.EncodeDependsOnItsInputOnly := by
  intro s s' hcfg hlen hin hbytes
  have hinBytes : s'.inBytes = s.inBytes := by
    rw [State.inBytes, hlen]
    exact State.bytesOf_congr hbytes
  obtain ⟨t, e, hreport⟩ := execEncode_report hin
  obtain ⟨t', e', hreport'⟩ := execEncode_report (s := s') (by rwa [hcfg, hlen])
  rw [hcfg, hinBytes, ← hreport] at hreport'
  simp only [State.encodeReport, Prod.mk.injEq] at hreport'
  exact ⟨t, t', e, e', hreport'⟩

/-! ## The frame of DECODE -/

/-- Only what `DECODE` may write differs (rule R81). -/
def State.DecodeFrame (s t : State) : Prop :=
  t = { s with
    root := t.root
    outBuf := t.outBuf
    outLen := t.outLen
    trailBits := t.trailBits
    pending := none
    done := true
    errCode := t.errCode
    errDetail := t.errDetail
    errPos := t.errPos }

theorem State.decodesWith_root {s : State} {root : Tree} (h : s.decodesWith root) (h0 : s.tokLen = 0) :
    root = s.root := by
  obtain ⟨-, -, ⟨-, hroot⟩ | ⟨hne, -⟩⟩ := h
  · exact hroot
  · exact absurd h0 hne

/-- A `DECODE` that fails before its walk keeps `OUT_BUF`, and the tree unless a token sequence was supplied. -/
theorem execDecode_without_walk {s : State} (h : ∀ root, ¬ s.decodesWith root) :
    ∃ t, execDecode s = .next t ∧ s.DecodeFrame t ∧ (s.tokLen = 0 → t.root = s.root) ∧ t.outBuf = s.outBuf := by
  obtain ⟨-, e⟩ | ⟨-, -, e⟩ | ⟨-, -, hne, c, -, e⟩ | ⟨root, hd, -⟩ := execDecode_cases s
  · exact ⟨_, e, rfl, fun _ => rfl, rfl⟩
  · exact ⟨_, e, rfl, fun _ => rfl, rfl⟩
  · exact ⟨_, e, rfl, fun h0 => absurd h0 hne, rfl⟩
  · exact absurd hd (h root)

/-- `DECODE` without a tree keeps `OUT_BUF` (rule R82). -/
theorem execDecode_nil_frame {s : State} (h : s.decodesWith .nil) :
    ∃ t, execDecode s = .next t ∧ s.DecodeFrame t ∧ t.root = .nil ∧ t.outBuf = s.outBuf :=
  ⟨_, (execDecode_of_decodesWith h).trans (congrArg _ (if_pos rfl)), rfl, rfl, rfl⟩

/-- `DECODE` with a tree (rule R81): what stays, and every byte of `OUT_BUF`, however its walk ends. -/
theorem execDecode_walk_written {s : State} {root : Tree} (h : s.decodesWith root) (hn : root ≠ .nil) :
    ∃ t, execDecode s = .next t ∧ s.DecodeFrame t ∧ t.root = root ∧
      ∀ a, t.readByte .outBuf a =
        if a < (s.decodeWalk root).out.length ∧ a < s.cfg.outCap.toNat then (s.decodeWalk root).out.getD a 0
        else s.readByte .outBuf a := by
  cases hw : s.decodeWalk root with
  | mk out stop =>
    cases stop with
    | ok n =>
      obtain ⟨t, e, ht, hout⟩ := execDecode_walk_ok h hn hw
      exact ⟨t, e, by rw [State.DecodeFrame, ht], by rw [ht], hout⟩
    | error r =>
      obtain ⟨t, e, ht, hout⟩ := execDecode_walk_error h hn hw
      exact ⟨t, e, by rw [State.DecodeFrame, ht], by rw [ht], hout⟩

/-- `DECODE` with a tree writes what its walk emits and no other byte (rule R81). -/
theorem execDecode_walk_frame {s : State} {root : Tree} (h : s.decodesWith root) (hn : root ≠ .nil) :
    ∃ t, execDecode s = .next t ∧ s.DecodeFrame t ∧ t.root = root ∧ t.OutHolds (s.decodeWalk root).out ∧
      ∀ a, (s.decodeWalk root).out.length ≤ a → t.readByte .outBuf a = s.readByte .outBuf a := by
  obtain ⟨hfit, -⟩ := s.decodeWalk_bounds root
  obtain ⟨t, e, hframe, hroot, hbyte⟩ := execDecode_walk_written h hn
  refine ⟨t, e, hframe, hroot, .of_written hfit hbyte, fun a ha => ?_⟩
  rw [hbyte, if_neg (by omega)]

/-- Settles O54, by whether `DECODE` comes to its walk, and with which tree. -/
theorem decodeTouchesOnlyItsOutputs : Obligations.DecodeTouchesOnlyItsOutputs := by
  intro s
  by_cases hd : ∃ root, s.decodesWith root
  · obtain ⟨root, hd⟩ := hd
    by_cases hn : root = .nil
    · subst hn
      obtain ⟨t, e, hframe, hroot, hbuf⟩ := execDecode_nil_frame hd
      refine ⟨t, e, hframe, fun h0 => hroot.trans (State.decodesWith_root hd h0), fun _ => hbuf, fun _ => hbuf, ?_⟩
      intro root' hd' hn'
      exact absurd (State.decodesWith_unique hd hd') hn'
    · obtain ⟨t, e, hframe, hroot, hout, hbeyond⟩ := execDecode_walk_frame hd hn
      refine ⟨t, e, hframe, fun h0 => hroot.trans (State.decodesWith_root hd h0), fun h => absurd hd (h root),
        fun hnil => absurd (State.decodesWith_unique hnil hd) hn, fun root' hd' _ => ?_⟩
      obtain rfl := State.decodesWith_unique hd hd'
      exact ⟨hout, hbeyond⟩
  · rw [not_exists] at hd
    obtain ⟨t, e, hframe, hroot, hbuf⟩ := execDecode_without_walk hd
    exact ⟨t, e, hframe, hroot, fun _ => hbuf, fun _ => hbuf, fun root h => absurd h (hd root)⟩

end Sys2Proof.Machine

/-! The family of 41_tree_builder.md: the builder's queue and its merges (rules R68 to R70), the shape of the tree it
builds (rules R71 to R73), and the fresh tables that every `ENCODE` leaves when its input fits (rules R66, R77, R80). -/

namespace Sys2Proof.Machine

/-! ## The queue and its merges -/

/-- The present symbols as symbol values, in ascending order (rule R69). -/
theorem presentSymbols_eq_map_range (freq : FreqTable) :
    presentSymbols freq =
      ((List.range 256).filter (fun n => decide (countOf freq (Byte.ofNat n) ≠ 0))).map Byte.ofNat := by
  rw [presentSymbols, List.filter_map]
  congr 2
  funext n
  exact Bool.eq_iff_iff.2 (by simp)

/-- No entry precedes the one that `ExtractMin` takes (rules R68, R69). -/
theorem Entry.not_before_iff (a b : Entry) :
    a.before b = false ↔ b.w < a.w ∨ (b.w = a.w ∧ b.q ≤ a.q) := by
  rw [Bool.eq_false_iff, ne_eq, Entry.before_iff]
  omega

/-- One round of the loop (rules R68, R70): the first entry extracted is the left child, the second the right one. -/
theorem mergeAll_merge {queue rest rest' : List Entry} {a b : Entry} (ha : extractMin queue = some (a, rest))
    (hb : extractMin rest = some (b, rest')) (n q : Nat) :
    mergeAll (n + 1) queue q = mergeAll n (⟨a.w + b.w, q, .internal a.t b.t⟩ :: rest') (q + 1) := by
  simp only [mergeAll, ha, hb]

/-- The loop ends at a queue of one entry, with its tree (rule R68). -/
@[simp] theorem mergeAll_singleton (n : Nat) (e : Entry) (q : Nat) : mergeAll (n + 1) [e] q = e.t := by
  simp [mergeAll, extractMin]

/-- With two or more present symbols `Build` is the loop over the first queue (rule R68). -/
theorem build_eq_mergeAll {freq : FreqTable} (h : 2 ≤ (leafQueue freq).length) :
    build freq = mergeAll (leafQueue freq).length (leafQueue freq) (leafQueue freq).length := by
  rw [build]
  split
  · next e => simp [e] at h
  · next e => simp [e] at h
  · rfl

/-- Settles O37: the queue is the present symbols numbered in order, and the loop is its two cases. -/
theorem mergesTakeTheTwoLeastKeys : Obligations.MergesTakeTheTwoLeastKeys := by
  refine ⟨fun freq => ⟨?_, fun i hi => ?_⟩, fun _ => build_eq_mergeAll, fun queue e rest h => ?_,
    fun n _ _ _ _ _ q ha hb => mergeAll_merge ha hb n q, mergeAll_singleton⟩
  · rw [leafQueue_length, presentSymbols_eq_map_range, List.length_map]
  · rw [leafQueue_getElem?, presentSymbols_eq_map_range, List.getElem?_map, List.getElem?_eq_getElem hi]
    rfl
  · obtain ⟨hperm, hmin⟩ := extractMin_some h
    exact ⟨hperm, fun x hx => (Entry.not_before_iff x e).1 (hmin x hx)⟩

/-! ## The tree built -/

theorem presentSymbols_eq_nil {freq : FreqTable} (h : ∀ x, countOf freq x = 0) : presentSymbols freq = [] :=
  List.eq_nil_iff_forall_not_mem.2 fun x hx => (mem_presentSymbols freq x).1 hx (h x)

theorem presentSymbols_eq_singleton {freq : FreqTable} {s : Byte} (hs : countOf freq s ≠ 0)
    (h : ∀ x, x ≠ s → countOf freq x = 0) : presentSymbols freq = [s] := by
  rw [← List.perm_singleton, List.perm_ext_iff_of_nodup (presentSymbols_nodup freq) (List.nodup_singleton s)]
  intro x
  rw [mem_presentSymbols, List.mem_singleton]
  exact ⟨fun hx => by_contra fun hne => hx (h x hne), fun e => e ▸ hs⟩

theorem two_le_length_presentSymbols {freq : FreqTable} {x y : Byte} (hne : x ≠ y) (hx : countOf freq x ≠ 0)
    (hy : countOf freq y ≠ 0) : 2 ≤ (presentSymbols freq).length := by
  have hsub : [x, y] ⊆ presentSymbols freq := by simpa [mem_presentSymbols] using ⟨hx, hy⟩
  have hnodup : [x, y].Nodup := by simpa using hne
  exact hnodup.length_le_of_subset hsub

/-- No present symbol gives `NIL` (rule R72). -/
theorem build_eq_nil {freq : FreqTable} (h : presentSymbols freq = []) : build freq = .nil := by
  obtain ⟨-, e⟩ | ⟨s, hs, -⟩ | ⟨hlen, -⟩ := build_cases freq
  · exact e
  · simp [h] at hs
  · simp [h] at hlen

/-- One present symbol gives its wrapper (rule R71). -/
theorem build_eq_wrapper {freq : FreqTable} {s : Byte} (h : presentSymbols freq = [s]) :
    build freq = .wrapper s := by
  obtain ⟨hs, -⟩ | ⟨s', hs, e⟩ | ⟨hlen, -⟩ := build_cases freq
  · simp [h] at hs
  · obtain rfl : s = s' := by simpa [h] using hs
    exact e
  · simp [h] at hlen

/-- Two or more present symbols give a full tree (rule R73). -/
theorem build_isFullTree {freq : FreqTable} (h : 2 ≤ (presentSymbols freq).length) :
    (build freq).isFullTree = true := by
  have hnodup := build_nodup freq
  obtain ⟨hs, -⟩ | ⟨s, hs, -⟩ | ⟨-, -, l, r, e, hl, hr⟩ := build_cases freq
  · simp [hs] at h
  · simp [hs] at h
  · rw [e, Tree.leaves] at hnodup
    simp [e, Tree.isFullTree, hl, hr, hnodup]

/-- Settles O38, by the number of present symbols. -/
theorem builtTreeHasThePresentSymbols : Obligations.BuiltTreeHasThePresentSymbols := fun freq =>
  ⟨build_leaves_perm freq, fun h => build_eq_nil (presentSymbols_eq_nil h),
    fun _ hs h => build_eq_wrapper (presentSymbols_eq_singleton hs h),
    fun _ _ hne hx hy => build_isFullTree (two_le_length_presentSymbols hne hx hy)⟩

/-! ## The tables ENCODE leaves -/

/-- An `ENCODE` whose input fits leaves the fresh tables, whether or not its bits fit too (rules R77, R80). -/
theorem execEncode_tables {s : State} (hin : s.inLen.toNat ≤ s.cfg.inCap.toNat) :
    ∃ t, execEncode s = .next t ∧ t.freq = freqCount s.inBytes ∧ t.root = build t.freq ∧ t.ct = genCodes t.root := by
  obtain ⟨hlt, -⟩ | ⟨-, i, -, -, -, -, e⟩ | ⟨-, -, e⟩ := execEncode_cases s
  · omega
  · exact ⟨_, e, rfl, rfl, rfl⟩
  · exact ⟨_, e, by simp⟩

/-- Settles O40: the fresh tables are the input's, and no count wraps because `IN_LEN` is a word (rule R67). -/
theorem encodeBuildsFreshTables : Obligations.EncodeBuildsFreshTables := by
  intro s hin
  obtain ⟨t, e, hfreq, hroot, hct⟩ := execEncode_tables hin
  have hlen : s.inBytes.length < 2 ^ 32 := by simpa using s.inLen.isLt
  refine ⟨t, e, fun x => ?_, hroot, hct, ?_⟩
  · rw [hfreq, countOf_freqCount_toNat hlen]
  · rw [hroot]
    exact build_legal _

end Sys2Proof.Machine

/-! The family of 42_code_table_generator.md: the table `GEN_CODES` leaves (rules R74, R76), also after an `ENCODE`
(rule R77), and the shape of a code set: prefix-free, and complete for a full tree (rule R75). -/

namespace Sys2Proof.Machine

/-! ## GEN_CODES -/

/-- Settles O23: the table is the held tree's, whose symbols are distinct. -/
theorem genCodesRecordsEveryLeafsPath : Obligations.GenCodesRecordsEveryLeafsPath := fun _ =>
  ⟨_, rfl, rfl, fun hl => entry_genCodes (Tree.legal_nodup hl)⟩

/-- `GEN_CODES` when the table is already the held tree's only completes (rule R76). -/
theorem execGenCodes_of_ct_eq {s : State} (h : s.ct = genCodes s.root) : execGenCodes s = .next (s.complete .ok) := by
  rw [execGenCodes, ← h]

/-- Settles O25, by how `ENCODE` ends: in each way the table is the fresh tree's, and the way that reports no error has
completed as `GEN_CODES` does. -/
theorem genCodesAfterEncodeChangesNothing : Obligations.GenCodesAfterEncodeChangesNothing := by
  intro s hin
  obtain ⟨hlt, -⟩ | ⟨-, i, -, -, -, -, e⟩ | ⟨-, -, e⟩ := execEncode_cases s
  · omega
  · refine ⟨_, _, e, execGenCodes_of_ct_eq rfl, rfl, fun h0 => ?_⟩
    exact absurd h0 (show ErrCode.capacity.bits ≠ 0 by decide)
  · exact ⟨_, _, e, execGenCodes_of_ct_eq (by simp), rfl, fun _ => rfl⟩

/-! ## The code set of a tree -/

/-- Settles O26: a path to a leaf that continues another is that one, so both lead to one symbol. -/
theorem codesArePrefixFree : Obligations.CodesArePrefixFree := by
  intro t x y p q hl hxy hp hq hpq
  have hn := Tree.legal_nodup hl
  rw [entry_genCodes hn] at hp hq
  obtain rfl := Tree.follow_prefix hp hq hpq
  exact hxy (Tree.leaf.inj (hp.symm.trans hq))

/-- In a full tree every bit-string reaches a leaf on its way or is the start of a path to one (rule R75, item 2). -/
theorem Tree.exists_follow_prefix_of_full {t : Tree} (h : t.full = true) (bits : BitString) :
    ∃ x p, t.follow p = .leaf x ∧ (p <+: bits ∨ bits <+: p) := by
  induction t generalizing bits with
  | nil => cases h
  | leaf x => exact ⟨x, [], rfl, .inl List.nil_prefix⟩
  | internal l r ihl ihr =>
    rw [Tree.full, Bool.and_eq_true] at h
    obtain ⟨hl, hr⟩ := h
    match bits with
    | [] =>
      obtain ⟨x, p, hp, -⟩ := ihl hl []
      exact ⟨x, false :: p, hp, .inr List.nil_prefix⟩
    | false :: bits =>
      obtain ⟨x, p, hp, hpre⟩ := ihl hl bits
      exact ⟨x, false :: p, hp, by simpa using hpre⟩
    | true :: bits =>
      obtain ⟨x, p, hp, hpre⟩ := ihr hr bits
      exact ⟨x, true :: p, hp, by simpa using hpre⟩

theorem Tree.full_and_nodup_of_isFullTree {t : Tree} (h : t.isFullTree = true) : t.full = true ∧ t.leaves.Nodup := by
  cases t with
  | nil | leaf x => cases h
  | internal l r => simpa [Tree.isFullTree, Tree.full, Tree.leaves] using h

/-- The one code of a wrapper is "0" (rules R63, R71). -/
theorem Tree.eq_of_follow_wrapper {s x : Byte} {p : BitString} (h : (Tree.wrapper s).follow p = .leaf x) :
    p = [false] := by
  match p with
  | [] => cases h
  | true :: p => simp [Tree.wrapper] at h
  | [false] => rfl
  | false :: b :: p => simp [Tree.wrapper] at h

/-- Settles O27: a bit-string's walk in a full tree meets a leaf or stops above one, and a wrapper's one code is "0". -/
theorem fullTreeCodesAreComplete : Obligations.FullTreeCodesAreComplete := by
  constructor
  · intro t bits ht
    obtain ⟨hf, hn⟩ := Tree.full_and_nodup_of_isFullTree ht
    obtain ⟨x, p, hp, hpre⟩ := Tree.exists_follow_prefix_of_full hf bits
    exact ⟨x, p, (entry_genCodes hn x p).2 hp, hpre⟩
  · intro s x p h
    rw [entry_genCodes (Tree.legal_nodup (Tree.legal_wrapper s))] at h
    obtain rfl := Tree.eq_of_follow_wrapper h
    decide

end Sys2Proof.Machine

/-! The family of 43_huffman_encoder.md: the two errors of `ENCODE` (rule R77), the length of its bit-string (rule R78),
and that every input byte has a code (rule R79). -/

namespace Sys2Proof.Machine

/-! ## The errors of ENCODE -/

/-- Settles O39: `CAP_IN` completes the command on the state it began with. -/
theorem encodeInputTooLongChangesNothing : Obligations.EncodeInputTooLongChangesNothing := by
  intro s hin
  obtain ⟨-, e⟩ | ⟨hle, -⟩ | ⟨hle, -⟩ := execEncode_cases s
  · exact e
  · exact absurd hin hle.not_gt
  · exact absurd hin hle.not_gt

/-- `ENCODE` when its input fits and its bits do not (rule R77): `CAP_BIT` at the byte `i` at which the running total
passes the capacity. -/
theorem execEncode_capBit {s : State} (hin : s.inLen.toNat ≤ s.cfg.inCap.toNat)
    (hbits : s.cfg.bitCap < s.encoded.length) :
    ∃ i, execEncode s = .next (State.complete { s.freshTables with bitLen := 0 } (.capacity .capBit i)) ∧
      i < s.inLen.toNat ∧
      (encodeBits s.freshTables.ct (s.inBytes.take i)).length ≤ s.cfg.bitCap ∧
      s.cfg.bitCap < (encodeBits s.freshTables.ct (s.inBytes.take (i + 1))).length := by
  obtain ⟨hlt, -⟩ | ⟨-, i, hi, hbefore, hpast, -, e⟩ | ⟨-, hfit, -⟩ := execEncode_cases s
  · exact absurd hlt hin.not_gt
  · exact ⟨i, e, hi, hbefore, hpast⟩
  · exact absurd hbits hfit.not_gt

/-- Settles O42: the running total is the length of the codes so far, and `ERR_POS` holds the index because `IN_LEN` is
a word. -/
theorem encodePastBitCapacityReportsTheByte : Obligations.EncodePastBitCapacityReportsTheByte := by
  intro s hin (hbits : s.cfg.bitCap < s.encoded.length)
  obtain ⟨i, e, hi, hbefore, hpast⟩ := execEncode_capBit hin hbits
  have hpos : (Word.ofNat i).toNat = i := Nat.mod_eq_of_lt (hi.trans s.inLen.isLt)
  rw [encodeBits_length] at hbefore hpast
  refine ⟨_, e, rfl, rfl, ?_⟩
  simp only [State.complete_errPos, CmdResult.pos, hpos]
  exact ⟨hi, hbefore, hpast⟩

/-! ## Every input byte has a code -/

/-- No command reports the encoder's failure (rules R79, R104). -/
theorem CmdResult.code_ne_symbolAbsent (r : CmdResult) : r.code ≠ .symbolAbsent := by
  cases r <;> simp [CmdResult.code]

theorem ErrCode.bits_eq_five_iff (c : ErrCode) : c.bits = 5 ↔ c = .symbolAbsent := by
  cases c <;> decide

theorem execEncode_errCode {s t : State} (h : execEncode s = .next t) : ∃ r : CmdResult, t.errCode = r.code.bits := by
  obtain ⟨-, e⟩ | ⟨-, i, -, -, -, -, e⟩ | ⟨-, -, e⟩ := execEncode_cases s <;> cases h.symm.trans e <;>
    exact ⟨_, State.complete_errCode _ _⟩

/-- Settles O41: a completed command reports no code 5, and the fresh tree has a leaf for every input byte. -/
theorem everyInputByteHasACode : Obligations.EveryInputByteHasACode := by
  intro s hin
  obtain ⟨t, e, hfreq, hroot, hct⟩ := execEncode_tables hin
  obtain ⟨r, hr⟩ := execEncode_errCode e
  have hlen : s.inBytes.length < 2 ^ 32 := by simpa using s.inLen.isLt
  refine ⟨t, e, fun h5 => ?_, fun b hb => ?_⟩
  · exact r.code_ne_symbolAbsent (r.code.bits_eq_five_iff.1 (hr.symm.trans h5))
  · rw [hct, hroot, hfreq]
    exact Option.isSome_iff_exists.1 ((entry_fresh hlen b).2 hb)

/-! ## The length of the bit-string -/

/-- An `ENCODE` that reports no error had room for its bits (rules R77, R78). -/
theorem execEncode_bitLen_of_ok {s t : State} (h : execEncode s = .next t) (h0 : t.errCode = 0) :
    t.bitLen.toNat = s.encoded.length := by
  have hcap : ErrCode.capacity.bits ≠ 0 := by decide
  obtain ⟨-, e⟩ | ⟨-, i, -, -, -, -, e⟩ | ⟨-, hfit, e⟩ := execEncode_cases s <;> cases h.symm.trans e
  · exact absurd h0 hcap
  · exact absurd h0 hcap
  · exact Nat.mod_eq_of_lt (hfit.trans_lt (bitCap_lt s.cfg))

/-- Settles O44: the sum of the code lengths over the input, regrouped by symbol; no count wraps because `IN_LEN` is a
word (rule R67). -/
theorem encodedLengthIsTheWeightedSum : Obligations.EncodedLengthIsTheWeightedSum := by
  intro s hin
  obtain ⟨t, e, hfreq, hroot, hct⟩ := execEncode_tables hin
  have hlen : s.inBytes.length < 2 ^ 32 := by simpa using s.inLen.isLt
  have henc : s.encoded = encodeBits t.ct s.inBytes := by rw [State.encoded, hct, hroot, hfreq]
  refine ⟨t, e, fun h0 => ?_⟩
  rw [execEncode_bitLen_of_ok e h0, henc, encodeBits_length, sum_map_eq_sum_count, hfreq]
  simp only [countOf_freqCount_toNat hlen]

end Sys2Proof.Machine

/-! The family of 44_huffman_decoder.md: the failures of `DECODE` before its walk (rules R81, R82, R106), its walk over
codes (rules R81, R83), `BAD_PATH` (rule R84), and the round trip through `ENCODE` and `SERIALIZE` (rule R85). -/

namespace Sys2Proof.Machine

/-! ## Codes give back their symbols -/

/-- A number no larger than a word's value is held by a word (rule R8). -/
theorem toNat_wordOfNat_of_le {n : Nat} {w : Word} (h : n ≤ w.toNat) : (Word.ofNat n).toNat = n :=
  Nat.mod_eq_of_lt (h.trans_lt w.isLt)

/-- With a tree, `DECODE` of codes of its symbols and a tail that ends at no leaf emits the symbols and counts the tail
(rules R81, R83). -/
theorem State.decodeWalk_codes {s : State} {root : Tree} {syms : List Byte} {tail : BitString}
    (hl : root.legal = true) (hn : root ≠ .nil) (hsyms : ∀ x ∈ syms, x ∈ root.leaves)
    (htail : ∃ l r, root.follow tail = .internal l r)
    (hbits : s.bits = syms.flatMap (codeOf (genCodes root)) ++ tail) (hcap : syms.length ≤ s.cfg.outCap.toNat) :
    s.decodeWalk root = ⟨syms, .ok tail.length⟩ := by
  obtain ⟨l, r, hroot⟩ := Tree.legal_root hl hn
  obtain ⟨l', r', htail⟩ := htail
  rw [State.decodeWalk, hbits]
  exact walkBits_codes hroot _ (fun x hx => follow_codeOf hl (hsyms x hx)) htail 0 (by omega)

/-- Settles O49: the walk ends with the bits, after the symbols. -/
theorem decodeGivesBackTheEncodedSymbols : Obligations.DecodeGivesBackTheEncodedSymbols := by
  intro s root syms tail hd hl hn hsyms htail hbits hcap
  obtain ⟨t, e, ht, hbyte⟩ := execDecode_walk_ok hd hn (State.decodeWalk_codes hl hn hsyms htail hbits hcap)
  refine ⟨t, e, ht, State.OutHolds.of_written hcap hbyte, fun a ha => ?_⟩
  rw [hbyte, if_neg (by omega)]

/-! ## The round trip -/

/-- Bytes written from offset 0 that fit in their buffer read back (rule R12). -/
theorem State.bytesOf_writeBytes (s : State) {sp : Space} (h : sp.isBuffer = true) {vs : List Byte}
    (hfit : vs.length ≤ s.cfg.size sp) : (s.writeBytes sp 0 vs).bytesOf sp vs.length = vs := by
  apply List.ext_getElem
  · simp
  · intro i hi hi'
    simp only [State.bytesOf, List.getElem_map, List.getElem_range]
    rw [State.readByte_writeBytes s h, if_pos ⟨rfl, by omega, by omega, by omega⟩]
    exact List.getD_eq_getElem _ _ hi'

theorem State.bits_congr {s t : State} (hlen : t.bitLen = s.bitLen) (h : t.readByte .bitBuf = s.readByte .bitBuf) :
    t.bits = s.bits := by
  rw [State.bits, hlen, State.bitRead_congr h, State.bits]

/-- `SERIALIZE` of a tree the block can hold (rules R88, R89): the token bytes are the tree's, and what `DECODE` reads
besides them is as it was. -/
theorem execSerialize_tokBytes {s : State} (hl : s.root.legal = true) :
    ∃ u, execSerialize s = .next u ∧ u.tokLen.toNat ≤ Config.tokCap ∧ u.tokBytes = serialize s.root ∧
      u.root = s.root ∧ u.bits = s.bits ∧ u.bitLen = s.bitLen ∧ u.cfg = s.cfg ∧ u.errCode = 0 := by
  have hfit : (serialize s.root).length ≤ Config.tokCap := (serialize_length_le hl).trans (by decide)
  have hlen : (Word.ofNat (serialize s.root).length).toNat = (serialize s.root).length :=
    Nat.mod_eq_of_lt (hfit.trans_lt (by decide))
  have hbytes := State.bytesOf_writeBytes s (sp := .tokBuf) rfl hfit
  refine ⟨_, rfl, hlen.trans_le hfit, ?_, by simp, ?_, by simp, by simp, rfl⟩
  · rw [State.tokBytes, State.complete_tokLen, hlen]
    refine Eq.trans (State.bytesOf_congr fun a _ => ?_) hbytes
    exact congrFun (State.readByte_congr_buffer rfl rfl rfl rfl) a
  · have hmem := State.writeBytes_mem_ne (sp := .tokBuf) (sp' := .bitBuf) s 0 (serialize s.root) (by decide)
    exact State.bits_congr (by simp) (State.readByte_congr_buffer rfl (by simp) (by simp) hmem)

/-- `DECODE` after `SERIALIZE` decodes with the tree serialized (rules R81, R99). -/
theorem execSerialize_decodesWith {s : State} (hl : s.root.legal = true) (hbit : s.bitLen.toNat ≤ s.cfg.bitCap) :
    ∃ u, execSerialize s = .next u ∧ u.decodesWith s.root ∧ u.bits = s.bits ∧ u.cfg = s.cfg ∧ u.errCode = 0 := by
  obtain ⟨u, e, htok, htoks, hroot, hbits, hlen, hcfg, herr⟩ := execSerialize_tokBytes hl
  refine ⟨u, e, ⟨htok, hcfg ▸ hlen ▸ hbit, ?_⟩, hbits, hcfg, herr⟩
  by_cases h0 : u.tokLen = 0
  · exact .inl ⟨h0, hroot.symm⟩
  · exact .inr ⟨h0, htoks ▸ deserialize_serialize hl⟩

/-- `ENCODE` when its input and its bits fit (rules R77, R80) leaves the tree of the input and the input's codes. -/
theorem execEncode_root_bits {s : State} (hin : s.inLen.toNat ≤ s.cfg.inCap.toNat)
    (hbits : s.encoded.length ≤ s.cfg.bitCap) :
    ∃ t, execEncode s = .next t ∧ t.root = build (freqCount s.inBytes) ∧ t.bits = s.encoded ∧
      t.bitLen.toNat ≤ t.cfg.bitCap ∧ t.cfg = s.cfg ∧ t.errCode = 0 := by
  obtain ⟨t, e, hframe, -, hlen, hbyte⟩ := execEncode_fits hin hbits
  obtain ⟨t', e', hfreq, hroot, -⟩ := execEncode_tables hin
  cases e.symm.trans e'
  have hcfg : t.cfg = s.cfg := by rw [hframe]
  have herr : t.errCode = 0 := by rw [hframe]
  exact ⟨t, e, by rw [hroot, hfreq], State.bits_writePacked s.freshTables hbits (State.bitRead_congr hbyte) hlen,
    by rwa [hlen, hcfg], hcfg, herr⟩

/-- `DECODE` of codes with no tail (rules R81, R82), without a tree too: then there are no symbols. -/
theorem execDecode_codes {s : State} {root : Tree} {syms : List Byte} (hd : s.decodesWith root)
    (hl : root.legal = true) (hsyms : ∀ x ∈ syms, x ∈ root.leaves)
    (hbits : s.bits = syms.flatMap (codeOf (genCodes root))) (hcap : syms.length ≤ s.cfg.outCap.toNat) :
    ∃ t, execDecode s = .next t ∧ t.errCode = 0 ∧ t.outLen = Word.ofNat syms.length ∧ t.trailBits = 0 ∧
      t.OutHolds syms := by
  by_cases hn : root = .nil
  · subst hn
    obtain rfl : syms = [] := List.eq_nil_iff_forall_not_mem.2 fun x hx => List.not_mem_nil (hsyms x hx)
    have hlen : s.bitLen = 0 := BitVec.eq_of_toNat_eq (by rw [← State.bits_length, hbits]; rfl)
    obtain ⟨t, e, hrep⟩ := execDecode_nil hd
    simp only [State.decodeReport, Prod.mk.injEq] at hrep
    obtain ⟨-, hout, htrail, herr, -, -⟩ := hrep
    exact ⟨t, e, herr, hout, htrail.trans hlen, fun i hi => absurd hi (Nat.not_lt_zero i)⟩
  · have hnotail := hbits.trans (List.append_nil _).symm
    have hwalk := State.decodeWalk_codes (tail := []) hl hn hsyms (Tree.legal_root hl hn) hnotail hcap
    obtain ⟨t, e, ht, hbyte⟩ := execDecode_walk_ok hd hn hwalk
    exact ⟨t, e, by rw [ht], by rw [ht], by rw [ht]; rfl, .of_written hcap hbyte⟩

/-- Every byte of an input is a leaf of the tree built from its counts (rules R66, R73, R79). -/
theorem State.mem_leaves_of_mem_inBytes {s : State} {x : Byte} (hx : x ∈ s.inBytes) :
    x ∈ (build (freqCount s.inBytes)).leaves := by
  have hlen : s.inBytes.length < 2 ^ 32 := by simpa using s.inLen.isLt
  exact (entry_genCodes_isSome (build_nodup _) x).1 ((entry_fresh hlen x).2 hx)

/-- Settles O56: the three commands in turn, on the tree built from the input and the codes of the input. -/
theorem encodeSerializeDecodeRoundTrip : Obligations.EncodeSerializeDecodeRoundTrip := by
  intro s hin hout hfit
  obtain ⟨t, et, hroot, htbits, htfit, htcfg, hterr⟩ := execEncode_root_bits hin hfit
  have hl : t.root.legal = true := hroot ▸ build_legal _
  obtain ⟨u, eu, hd, hubits, hucfg, huerr⟩ := execSerialize_decodesWith hl htfit
  rw [hroot] at hl hd
  have hbits : u.bits = s.inBytes.flatMap (codeOf (genCodes (build (freqCount s.inBytes)))) := hubits.trans htbits
  have hcap : s.inBytes.length ≤ u.cfg.outCap.toNat := by rwa [State.inBytes_length, hucfg, htcfg]
  obtain ⟨v, ev, hverr, hlen, htrail, hbytes⟩ :=
    execDecode_codes hd hl (fun _ => State.mem_leaves_of_mem_inBytes) hbits hcap
  refine ⟨t, u, v, et, eu, ev, hterr, huerr, hverr, by simpa using hlen, htrail, fun i hi => ?_⟩
  rw [hbytes i (by simpa using hi)]
  simp [State.inBytes, State.bytesOf]

/-! ## The output's capacity -/

/-- With a tree, `DECODE` of codes of more symbols than `OUT_CAP` emits the first ones and stops at the last bit of the
next one's code (rule R81, `CAP_OUT`). -/
theorem State.decodeWalk_codes_full {s : State} {root : Tree} {syms : List Byte} {tail : BitString}
    (hl : root.legal = true) (hn : root ≠ .nil) (hsyms : ∀ x ∈ syms, x ∈ root.leaves)
    (hbits : s.bits = syms.flatMap (codeOf (genCodes root)) ++ tail) (hmore : s.cfg.outCap.toNat < syms.length) :
    s.decodeWalk root = ⟨syms.take s.cfg.outCap.toNat, .error (.capacity .capOut
      (((syms.take (s.cfg.outCap.toNat + 1)).flatMap (codeOf (genCodes root))).length - 1))⟩ := by
  obtain ⟨l, r, hroot⟩ := Tree.legal_root hl hn
  rw [State.decodeWalk, hbits, walkBits_codes_full hroot (fun x hx => follow_codeOf hl (hsyms x hx)) tail 0
    (Nat.zero_le _) (by omega), Nat.sub_zero, Nat.zero_add]

/-- The codes of some symbols, at least one, of a tree the block can hold take at least one bit (rule R63). -/
theorem one_le_length_codes {root : Tree} (hl : root.legal = true) {syms : List Byte} (h : 0 < syms.length)
    (hsyms : ∀ x ∈ syms, x ∈ root.leaves) : 1 ≤ (syms.flatMap (codeOf (genCodes root))).length := by
  obtain ⟨x, syms, rfl⟩ := List.exists_cons_of_length_pos h
  have hcode := (Tree.code_length hl (follow_codeOf hl (hsyms x List.mem_cons_self))).1
  rw [List.flatMap_cons, List.length_append]
  omega

/-- The codes of the first symbols are among the bits. -/
theorem State.length_codes_take_le {s : State} {code : Byte → BitString} {syms : List Byte} {tail : BitString}
    (hbits : s.bits = syms.flatMap code ++ tail) (n : Nat) :
    ((syms.take n).flatMap code).length ≤ s.bitLen.toNat := by
  have hcodes : ((syms.take n).flatMap code).length ≤ (syms.flatMap code).length :=
    ((List.take_sublist n syms).flatMap code).length_le
  rw [← State.bits_length, hbits, List.length_append]
  omega

/-- Settles O50: the walk stops at the last bit of the first symbol that does not fit, which is one of the bits. -/
theorem decodeOutputCapacityReportsTheBit : Obligations.DecodeOutputCapacityReportsTheBit := by
  intro s root syms tail hd hl hn hsyms hbits hmore
  obtain ⟨t, e, ht, hbyte⟩ := execDecode_walk_error hd hn (State.decodeWalk_codes_full hl hn hsyms hbits hmore)
  have hholds : t.OutHolds (syms.take s.cfg.outCap.toNat) := .of_written (List.length_take_le _ _) hbyte
  have hone : 1 ≤ ((syms.take (s.cfg.outCap.toNat + 1)).flatMap (codeOf (genCodes root))).length :=
    one_le_length_codes hl (by rw [List.length_take]; omega) fun x hx => hsyms x (List.mem_of_mem_take hx)
  have hread := State.length_codes_take_le hbits (s.cfg.outCap.toNat + 1)
  refine ⟨t, e, by rw [ht]; rfl, ?_, fun i hi hicap => ?_⟩
  · have hpos : t.errPos = Word.ofNat
        (((syms.take (s.cfg.outCap.toNat + 1)).flatMap (codeOf (genCodes root))).length - 1) := by rw [ht]; rfl
    rw [hpos, toNat_wordOfNat_of_le ((Nat.sub_le _ _).trans hread), Nat.sub_add_cancel hone]
  · rw [hholds i (by rw [List.length_take]; omega), List.getElem_take]

/-! ## BAD_PATH -/

/-- Settles O51: the walk on a wrapper emits its symbol for every 0 bit and stops at the 1 bit. -/
theorem decodeOfAOneBitOnAWrapperIsBadPath : Obligations.DecodeOfAOneBitOnAWrapperIsBadPath := by
  intro s x j rest hd hbits hcap
  have hwalk : s.decodeWalk (.wrapper x) = ⟨List.replicate j x, .error (.badPath j)⟩ := by
    rw [State.decodeWalk, hbits, walkBits_wrapper_badPath x j rest 0 (by omega), Nat.zero_add]
  obtain ⟨t, e, ht, hbyte⟩ := execDecode_walk_error hd (by simp [Tree.wrapper]) hwalk
  simp only [List.length_replicate] at hbyte
  refine ⟨t, e, ht, fun i hi => ?_, fun a ha => ?_⟩
  · rw [hbyte, if_pos ⟨hi, by omega⟩]
    simp [hi]
  · rw [hbyte, if_neg (by omega)]

/-- The bits of a state that begin with `i` zeros and a one, bit by bit. -/
theorem State.bitRead_of_bits_eq {s : State} {i : Nat} {rest : BitString}
    (h : s.bits = List.replicate i false ++ true :: rest) :
    i < s.bitLen.toNat ∧ s.bitRead i = true ∧ ∀ k < i, s.bitRead k = false := by
  have hi : i < s.bitLen.toNat := by
    rw [← State.bits_length, h, List.length_append, List.length_replicate, List.length_cons]
    omega
  refine ⟨hi, ?_, fun k hk => ?_⟩
  · have hbit := State.bits_getElem? s hi
    rw [h] at hbit
    simpa using hbit.symm
  · have hbit := State.bits_getElem? s (hk.trans hi)
    rw [h, List.getElem?_append_left (by simpa using hk)] at hbit
    simpa [hk] using hbit.symm

/-- With a tree the block can hold, a walk that ends in `BAD_PATH` is on a wrapper, at its first 1 bit (rule R84). -/
theorem State.decodeWalk_badPath {s : State} {root : Tree} (hl : root.legal = true) (hn : root ≠ .nil) {j : Nat}
    (h : (s.decodeWalk root).stop = .error (.badPath j)) :
    root.isWrapper = true ∧ ∃ rest, s.bits = List.replicate j false ++ true :: rest := by
  obtain rfl | ⟨x, rfl⟩ | ⟨l, r, rfl, hfl, hfr, -⟩ := Tree.legal_cases hl
  · exact absurd rfl hn
  · obtain ⟨i, rest, hj, hbits⟩ := walkBits_wrapper_only x _ _ _ _ h
    rw [Nat.zero_add] at hj
    exact ⟨rfl, rest, hj ▸ hbits⟩
  · exact absurd h (walkBits_full hfl hfr _ _ _ hfl hfr _ _ _)

/-- A result with the code of `BAD_PATH` is a `BAD_PATH` (rule R104). -/
theorem CmdResult.exists_badPath_of_code {r : CmdResult} (h : r.code.bits = 4) : ∃ j, r = .badPath j := by
  cases r with
  | badPath j => exact ⟨j, rfl⟩
  | _ => simp [CmdResult.code, ErrCode.bits] at h

theorem State.decodeFail_errCode_ne_badPath (s : State) {r : CmdResult} (hr : ∀ j, r ≠ .badPath j) :
    (s.decodeFail r).errCode ≠ 4 := fun h =>
  (CmdResult.exists_badPath_of_code h).elim hr

/-- A `DECODE` that reports `BAD_PATH` walked with a tree, and its walk ended so (rules R81, R84). -/
theorem execDecode_badPath (s : State) :
    ∃ t, execDecode s = .next t ∧ (t.errCode = 4 → s.decodesWith t.root ∧ t.root ≠ .nil ∧
      ∃ j, (s.decodeWalk t.root).stop = .error (.badPath j) ∧ t.errPos = Word.ofNat j) := by
  obtain ⟨-, e⟩ | ⟨-, -, e⟩ | ⟨-, -, -, c, -, e⟩ | ⟨root, hd, -⟩ := execDecode_cases s
  · exact ⟨_, e, fun h => absurd h (State.decodeFail_errCode_ne_badPath _ (by simp))⟩
  · exact ⟨_, e, fun h => absurd h (State.decodeFail_errCode_ne_badPath _ (by simp))⟩
  · exact ⟨_, e, fun h => absurd h (State.decodeFail_errCode_ne_badPath _ (by simp))⟩
  · by_cases hn : root = .nil
    · subst hn
      obtain ⟨t, e, hrep⟩ := execDecode_nil hd
      simp only [State.decodeReport, Prod.mk.injEq] at hrep
      exact ⟨t, e, fun h => absurd h (by simp [hrep])⟩
    · cases hw : s.decodeWalk root with
      | mk out stop =>
        cases stop with
        | ok n =>
          obtain ⟨t, e, ht, -⟩ := execDecode_walk_ok hd hn hw
          exact ⟨t, e, fun h => absurd h (by rw [ht]; simp)⟩
        | error r =>
          obtain ⟨t, e, ht, -⟩ := execDecode_walk_error hd hn hw
          refine ⟨t, e, fun h => ?_⟩
          have hroot : t.root = root := by rw [ht]
          have hcode : r.code.bits = 4 := by rw [← h, ht]
          obtain ⟨j, rfl⟩ := CmdResult.exists_badPath_of_code hcode
          exact ⟨hroot ▸ hd, hroot ▸ hn, j, by rw [hroot, hw], by rw [ht]; rfl⟩

/-- Settles O52: no failure before the walk has the code of `BAD_PATH`, and a walk ends with it on a wrapper only. -/
theorem badPathHappensOnlyOnAWrapper : Obligations.BadPathHappensOnlyOnAWrapper := by
  intro s hl
  obtain ⟨t, e, hbad⟩ := execDecode_badPath s
  refine ⟨t, e, fun h => ?_⟩
  obtain ⟨hd, hn, j, hstop, hpos⟩ := hbad h
  obtain ⟨hwrapper, rest, hbits⟩ := State.decodeWalk_badPath (State.decodesWith_legal hl hd) hn hstop
  obtain ⟨hlt, hone, hzeros⟩ := State.bitRead_of_bits_eq hbits
  have hj : t.errPos.toNat = j := by rw [hpos, toNat_wordOfNat_of_le hlt.le]
  rw [hj]
  exact ⟨hwrapper, hlt, hone, hzeros⟩

/-! ## DECODE without a walk -/

/-- Settles O47, by the causes in the order of their checks. -/
theorem decodeFailsBeforeTheWalk : Obligations.DecodeFailsBeforeTheWalk := fun _ =>
  ⟨execDecode_capTok, execDecode_capBit, fun htok hbit hne _ hc => execDecode_corrupt htok hbit hne hc⟩

/-- Settles O48: the held tree after the token step is `NIL`. -/
theorem decodeWithoutATreeDiscardsEveryBit : Obligations.DecodeWithoutATreeDiscardsEveryBit := fun _ hd =>
  (execDecode_of_decodesWith hd).trans (congrArg _ (if_pos rfl))

end Sys2Proof.Machine

/-! The family of 45_tree_serializer.md: the length of a token sequence (rule R88) and what `SERIALIZE` leaves
(rule R89). -/

namespace Sys2Proof.Machine

/-! ## The length of a serialized tree -/

/-- Settles O29, by the shapes of a legal tree. -/
theorem serializedLengthIsBounded : Obligations.SerializedLengthIsBounded :=
  ⟨rfl, fun _ => rfl, fun _ h => serialize_length (Tree.full_and_nodup_of_isFullTree h).1,
    fun _ => serialize_length_le⟩

/-! ## What SERIALIZE leaves -/

/-- `SERIALIZE` of any tree (rule R89): what stays, the length register, and every byte of `TOK_BUF`. -/
theorem execSerialize_written (s : State) :
    ∃ t, execSerialize s = .next t ∧
      t = { s with
        tokBuf := t.tokBuf
        tokLen := t.tokLen
        pending := none
        done := true
        errCode := 0
        errDetail := 0
        errPos := 0 } ∧
      t.tokLen = Word.ofNat (serialize s.root).length ∧
      ∀ a, t.readByte .tokBuf a =
        if a < Config.tokCap ∧ a < (serialize s.root).length then (serialize s.root).getD a 0
        else s.readByte .tokBuf a := by
  refine ⟨_, rfl, ?_, rfl, fun a => ?_⟩
  · rw [State.writeBytes_eq_setMem]
    rfl
  · have hbyte := s.readByte_writeBytes (sp := .tokBuf) rfl 0 (serialize s.root) .tokBuf a
    simp only [true_and, Nat.zero_le, Nat.zero_add, Nat.sub_zero] at hbyte
    refine Eq.trans (congrFun ?_ a) hbyte
    exact State.readByte_congr_buffer rfl rfl rfl rfl

/-- Settles O30: the tokens of a tree the block can hold fit in `TOK_BUF`, and their number in `TOK_LEN`. -/
theorem serializeWritesTheHeldTree : Obligations.SerializeWritesTheHeldTree := by
  intro s
  obtain ⟨t, e, hframe, hlen, hbyte⟩ := execSerialize_written s
  refine ⟨t, e, hframe, fun a ha => ?_, fun hl => ?_⟩
  · rw [hbyte, if_neg (by omega)]
  · have hle := serialize_length_le hl
    refine ⟨?_, fun i hi => ?_⟩
    · rw [hlen]
      exact Nat.mod_eq_of_lt (by omega)
    · have hcap : i < Config.tokCap := (hi.trans_le hle).trans (by decide)
      rw [hbyte, if_pos ⟨hcap, hi⟩]
      exact List.getD_eq_getElem _ _ hi

end Sys2Proof.Machine

/-! The family of 46_tree_deserializer.md: the results of `DESERIALIZE` and what they depend on (rules R93, R100), the
round trip through `SERIALIZE` (rule R99), and the scan without a stack (rule R98). -/

namespace Sys2Proof.Machine

/-! ## The results of DESERIALIZE, by their causes (rule R100) -/

theorem execDeserialize_capTok {s : State} (h : Config.tokCap < s.tokLen.toNat) :
    execDeserialize s = .next (s.complete (.capacity .capTok 0)) := if_pos h

theorem execDeserialize_corrupt {s : State} (h : s.tokLen.toNat ≤ Config.tokCap) {c : Corrupt}
    (hc : deserialize s.tokBytes = .error c) :
    execDeserialize s = .next (State.complete { s with root := .nil } (.corruptTree c)) := by
  rw [execDeserialize, if_neg h.not_gt, hc]

theorem execDeserialize_ok {s : State} (h : s.tokLen.toNat ≤ Config.tokCap) {root : Tree}
    (hroot : deserialize s.tokBytes = .ok root) :
    execDeserialize s = .next (State.complete { s with root := root } .ok) := by
  rw [execDeserialize, if_neg h.not_gt, hroot]

/-- Settles O33: each result completes the command, with the root it leaves. -/
theorem deserializeLoadsOrFails : Obligations.DeserializeLoadsOrFails := fun _ =>
  ⟨execDeserialize_capTok, fun h _ hc => execDeserialize_corrupt h hc, fun h _ hr => execDeserialize_ok h hr⟩

/-- Settles O32: the token bytes `SERIALIZE` leaves are the tree's, which the deserializer gives back. -/
theorem serializeThenDeserializeKeepsTheTree : Obligations.SerializeThenDeserializeKeepsTheTree := by
  intro s hl
  obtain ⟨t, et, htok, hbytes, -⟩ := execSerialize_tokBytes hl
  exact ⟨t, _, et, execDeserialize_ok htok (hbytes ▸ deserialize_serialize hl), rfl, rfl, rfl⟩

/-- Settles O36, by how `DESERIALIZE` ends in the first state: the second has the same token bytes, so it ends in the
same way. -/
theorem deserializeReadsOnlyTokLenBytes : Obligations.DeserializeReadsOnlyTokLenBytes := by
  intro s s' htok hroot hread
  have hbytes : s'.tokBytes = s.tokBytes := by
    rw [State.tokBytes, htok]
    exact State.bytesOf_congr hread
  obtain ⟨hcap, e⟩ | ⟨hcap, c, hc, e⟩ | ⟨hcap, root, hok, e⟩ := execDeserialize_cases s
  · exact ⟨_, _, e, execDeserialize_capTok (htok ▸ hcap), hroot, rfl, rfl, rfl⟩
  · exact ⟨_, _, e, execDeserialize_corrupt (htok ▸ hcap) (hbytes ▸ hc), rfl, rfl, rfl, rfl⟩
  · exact ⟨_, _, e, execDeserialize_ok (htok ▸ hcap) (hbytes ▸ hok), rfl, rfl, rfl, rfl⟩

/-! ## The scan of rule R98 -/

/-- The scan accepts the tokens of a full tree with an internal root and distinct symbols (rules R98, R99). -/
theorem scanTokens_serialize {l r : Tree} (hf : (Tree.internal l r).full = true)
    (hn : (Tree.internal l r).leaves.Nodup) : scanTokens (serialize (.internal l r)) 1 0 [] = .ok () := by
  have h := parseSub_serialize hf (Nat.le_succ _) (isRoot := false) (by simp) [] 0 (seen := []) (by simpa using hn)
  rw [List.append_nil] at h
  rw [scanTokens_parseSub (Nat.lt_succ_self _), h]
  rfl

/-- The scan's result is that of the deserializer's general case, unless the root is a leaf (rule R98). -/
theorem scanTokens_eq_map_parseTree_of_root {toks : List Byte} (h0 : toks[0]? ≠ some markerLeaf) :
    scanTokens toks 1 0 [] = (parseTree toks).map (fun _ => ()) := by
  cases h : parseTree toks with
  | error c => exact scanTokens_of_parseTree_error h0 h
  | ok t =>
    obtain ⟨rfl, hf, hn, l, r, rfl⟩ := parseTree_ok h
    exact scanTokens_serialize hf hn

theorem scanDeserialize_wrapper (s : Byte) : scanDeserialize (serialize (.wrapper s)) = .ok () := rfl

/-- `scanDeserialize` outside its two special cases is the root-leaf check and the scan (rule R98). -/
theorem scanDeserialize_eq_scanTokens {toks : List Byte} (h0 : toks ≠ [])
    (h3 : ∀ s, toks ≠ serialize (.wrapper s)) :
    scanDeserialize toks =
      if toks[0]? = some markerLeaf then .error ⟨.rootLeaf, 0⟩ else scanTokens toks 1 0 [] := by
  rw [scanDeserialize, if_neg h0, if_neg]
  rintro ⟨hlen, hfst, hsnd⟩
  obtain ⟨a, b, s, rfl⟩ := List.length_eq_three.1 hlen
  cases hfst
  cases hsnd
  exact h3 s rfl

/-- The root-leaf check and the scan report what the deserializer's general case does (rules R95, R98). -/
theorem map_parseTree_eq_scanTokens (toks : List Byte) :
    (parseTree toks).map (fun _ => ()) =
      if toks[0]? = some markerLeaf then .error ⟨.rootLeaf, 0⟩ else scanTokens toks 1 0 [] := by
  split
  case isTrue h =>
    obtain ⟨rest, rfl⟩ : ∃ rest, toks = markerLeaf :: rest := by
      rw [← List.head?_eq_getElem?] at h
      exact List.head?_eq_some_iff.1 h
    rw [parseTree_rootLeaf]
    rfl
  case isFalse h => exact (scanTokens_eq_map_parseTree_of_root h).symm

/-- Settles O35: both accept the empty sequence and a wrapper's; on every other one the parse and the scan agree. -/
theorem stacklessScanReportsTheSameFailure : Obligations.StacklessScanReportsTheSameFailure := by
  intro toks
  by_cases h0 : toks = []
  · subst h0
    rfl
  · by_cases hw : ∃ s, toks = serialize (.wrapper s)
    · obtain ⟨s, rfl⟩ := hw
      rw [deserialize_wrapper, scanDeserialize_wrapper]
      rfl
    · have hne := not_exists.1 hw
      rw [deserialize_eq_parseTree h0 hne, scanDeserialize_eq_scanTokens h0 hne, map_parseTree_eq_scanTokens]

end Sys2Proof.Machine

/-! The family of 47_session_control.md: what `CLEAR` leaves (rule R101). -/

namespace Sys2Proof.Machine

/-- Settles O22: `CLEAR` installs the empty tables and `NIL`, which count no occurrence, code or symbol. -/
theorem clearDiscardsTreeAndTable : Obligations.ClearDiscardsTreeAndTable := by
  intro s
  exact ⟨_, rfl, rfl, countOf_empty, entry_empty, State.nsym_of_ct_empty rfl, rfl⟩

end Sys2Proof.Machine

/-! The family of 60_exceptions.md: an idle block keeps all state (rule R117). -/

namespace Sys2Proof.Machine

/-- A host with no move left passes. -/
theorem hostTurn_of_host_nil {s : State} (hh : s.host = []) : hostTurn s = .next s := by
  rw [hostTurn, hh]

/-- With an empty schedule there is no turn to use up. -/
theorem State.spendTurn_of_sched_nil {s : State} (hs : s.sched = []) : s.spendTurn = s := by
  rw [State.spendTurn, hs, List.tail_nil, ← hs]

/-- Settles O7: the turn is the host's, who passes. -/
theorem idleBlockKeepsItsState : Obligations.IdleBlockKeepsItsState := by
  intro s hp hh hs
  calc
    step s = hostTurn s.spendTurn := step_host (State.turn_host_of_sched_nil hs hp)
    _ = hostTurn s := by rw [State.spendTurn_of_sched_nil hs]
    _ = .next s := hostTurn_of_host_nil hh

end Sys2Proof.Machine
